-- ==== Sys2Proof/Word.lean ====
section
/-! DEFINITION. The word types of the SFP (spec/00_scope.md R9: bits are numbered from 0 at the least
significant bit, every value is unsigned; `a ++ b` has `a` in the more significant position, which is
also what Lean's `++` on `BitVec` does). -/

namespace Sys2Proof

/-- A byte: a frame byte, a CRC value, the register `ACC`. -/
abbrev Byte := BitVec 8

/-- 16 bits: a raw count (41_measurement_decoder.md R131) or a status word (10_state.md R27). -/
abbrev Half := BitVec 16

/-- One operation word (30_encoding.md R80: "Every operation word is 64 bits"). -/
abbrev Word := BitVec 64

/-- The encoding of an IEEE-754 binary64 value (10_state.md R24). -/
abbrev F64 := BitVec 64

end Sys2Proof
end

