-- ==== Sys2Proof/Syntax.lean ====
section
/-! DEFINITION. The operations of the SFP, one constructor per row of spec/opcode_table.json
(30_encoding.md R82), and the assembler's lines (30_encoding.md R86, R87). -/

namespace Sys2Proof

/-- The five operations (30_encoding.md R82, R84). The operands are the frame's bytes, `b0` first
(30_encoding.md R83). -/
inductive Instr where
  /-- NOP (43_control.md R190). -/
  | nop
  /-- CRCINIT (40_crc.md R112). -/
  | crcinit
  /-- CRCBYTE d (40_crc.md R113). -/
  | crcbyte (d : Byte)
  /-- MDEC b0, b1, b2, b3, b4, b5 (41_measurement_decoder.md R136). -/
  | mdec (b0 b1 b2 b3 b4 b5 : Byte)
  /-- SDEC b0, b1, b2 (42_status_extractor.md R161). -/
  | sdec (b0 b1 b2 : Byte)
deriving DecidableEq, Repr

/-- A line of assembly (30_encoding.md R86) or a pseudo-instruction (30_encoding.md R87), with its
operands as the numbers the programmer wrote; WellFormed.lean gives their ranges. -/
inductive AsmLine where
  | nop
  | crcinit
  | crcbyte (d : Nat)
  | mdec (b0 b1 b2 b3 b4 b5 : Nat)
  | sdec (b0 b1 b2 : Nat)
  /-- `.word <64-bit value>`: the value as one operation word. -/
  | rawWord (v : Nat)
  /-- `crc8 <b1>, ..., <bn>` (n >= 0). -/
  | crcOf (bytes : List Nat)
  /-- `mframe <t>, <h>`. -/
  | mframe (t h : Nat)
  /-- `sframe <w>`. -/
  | sframe (w : Nat)
deriving DecidableEq, Repr

end Sys2Proof
end

