-- ==== Sys2Proof/Decode.lean ====
section
/-! DEFINITION. The operation word: its fields (30_encoding.md R81), the decoder, total over all 2^64
words (R85) and refusing by name, and after it the opcode table (R84) and the encoder. -/

namespace Sys2Proof

/-- Why a word is no operation (43_control.md R191, "Encoding"). The machine keeps no record of the
reason (60_exceptions.md R204); the names are the decoder's (log entry 18). -/
inductive IllegalReason where
  /-- rsv is not 0. -/
  | reservedBits
  /-- op is 0x5 to 0xF. -/
  | unassignedOpcode
  /-- A 1 in an operand bit that the operation does not use. -/
  | unusedOperandBits
deriving DecidableEq, Repr

/-- What the decoder makes of a word: one of the five operations, or illegal (30_encoding.md R85). -/
inductive Decoded where
  | legal (i : Instr)
  | illegal (why : IllegalReason)
deriving DecidableEq, Repr

/-- `op` = w[63:60] (30_encoding.md R81). -/
def opField (w : Word) : BitVec 4 := w.extractLsb' 60 4

/-- `rsv` = w[59:48] (30_encoding.md R81). -/
def rsvField (w : Word) : BitVec 12 := w.extractLsb' 48 12

/-- `opnd` = w[47:0] (30_encoding.md R81). -/
def opndField (w : Word) : BitVec 48 := w.extractLsb' 0 48

/-- Frame byte `k` of an `n`-byte frame is opnd[8*(n-1-k)+7 : 8*(n-1-k)] (30_encoding.md R83). -/
def frameByte (n k : Nat) (opnd : BitVec 48) : Byte := opnd.extractLsb' (8 * (n - 1 - k)) 8

/-- The operation, or the refusal of a 1 in an operand bit it does not use. -/
def legalIf (unusedClear : Bool) (i : Instr) : Decoded :=
  if unusedClear then .legal i else .illegal .unusedOperandBits

/-- Decoding of the operand under an opcode (30_encoding.md R82, R83), rsv being 0. -/
def decodeOperand (op : BitVec 4) (opnd : BitVec 48) : Decoded :=
  if op = 0x0 then legalIf (opnd == 0) .nop
  else if op = 0x1 then legalIf (opnd == 0) .crcinit
  else if op = 0x2 then legalIf (opnd.extractLsb' 8 40 == 0) (.crcbyte (frameByte 1 0 opnd))
  else if op = 0x3 then
    .legal (.mdec (frameByte 6 0 opnd) (frameByte 6 1 opnd) (frameByte 6 2 opnd)
      (frameByte 6 3 opnd) (frameByte 6 4 opnd) (frameByte 6 5 opnd))
  else if op = 0x4 then
    legalIf (opnd.extractLsb' 24 24 == 0)
      (.sdec (frameByte 3 0 opnd) (frameByte 3 1 opnd) (frameByte 3 2 opnd))
  else .illegal .unassignedOpcode

/-- The decoder (30_encoding.md R81 to R85). -/
def decode (w : Word) : Decoded :=
  if rsvField w = 0 then decodeOperand (opField w) (opndField w) else .illegal .reservedBits

/-- A row of the opcode table: `(w and mask) = match` (30_encoding.md R84). -/
structure OpcodeRow where
  mnemonic : String
  matchBits : Word
  maskBits : Word
deriving DecidableEq, Repr

/-- The table of 30_encoding.md R84 (and of opcode_table.json), as the spec prints it. -/
def opcodeRows : List OpcodeRow :=
  [ ⟨"NOP",     0x0000000000000000, 0xFFFFFFFFFFFFFFFF⟩,
    ⟨"CRCINIT", 0x1000000000000000, 0xFFFFFFFFFFFFFFFF⟩,
    ⟨"CRCBYTE", 0x2000000000000000, 0xFFFFFFFFFFFFFF00⟩,
    ⟨"MDEC",    0x3000000000000000, 0xFFFF000000000000⟩,
    ⟨"SDEC",    0x4000000000000000, 0xFFFFFFFFFF000000⟩ ]

/-- The word `w` matches the row. -/
def OpcodeRow.accepts (r : OpcodeRow) (w : Word) : Bool := w &&& r.maskBits == r.matchBits

/-- The mnemonic of an operation, as opcode_table.json spells it. -/
def Instr.mnemonic : Instr → String
  | .nop => "NOP"
  | .crcinit => "CRCINIT"
  | .crcbyte _ => "CRCBYTE"
  | .mdec _ _ _ _ _ _ => "MDEC"
  | .sdec _ _ _ => "SDEC"

/-- The word with the given op and opnd and rsv = 0 (30_encoding.md R81). -/
def opWord (op : BitVec 4) (opnd : BitVec 48) : Word := op ++ (0#12 ++ opnd)

/-- The operation word of an operation (30_encoding.md R82, R83): byte 0 of a frame is the most
significant byte used, and every bit not used is 0. -/
def encode : Instr → Word
  | .nop => opWord 0x0 0
  | .crcinit => opWord 0x1 0
  | .crcbyte d => opWord 0x2 (0#40 ++ d)
  | .mdec b0 b1 b2 b3 b4 b5 => opWord 0x3 (b0 ++ (b1 ++ (b2 ++ (b3 ++ (b4 ++ b5)))))
  | .sdec b0 b1 b2 => opWord 0x4 (0#24 ++ (b0 ++ (b1 ++ b2)))

/-- The operation word whose bits are `w`, numbered as opcode_table.json numbers them, the bits above
`nbits` being 0 (log entry 19). One operation is one word of 64 bits (30_encoding.md R80). -/
def tableWord (nbits w : Nat) : Word := BitVec.ofNat 64 (w % 2 ^ nbits)

/-- The operation the decoder reads from that word, `none` where it refuses. -/
def decodeTableWord (nbits w : Nat) : Option Instr :=
  match decode (tableWord nbits w) with
  | .legal i => some i
  | .illegal _ => none

end Sys2Proof
end

