-- ==== Sys2Proof/Config.lean ====
section
/-! DEFINITION. The implementation's constants: those the source fixes (spec/00_scope.md R6), those the
spec decides (R7, with the decision of 92_eei_decisions.md), and what is left open (R8 and the free
value of log entry 9). An open value is an opaque constant with no body. -/

namespace Sys2Proof

/-- The two readings of the temperature formula (92_eei_decisions.md D10, 41_measurement_decoder.md R133, R139). -/
inductive TempEval where
  /-- Every binary64 operation of the formula is rounded, left to right. -/
  | perOp
  /-- The exact value is rounded once. -/
  | single
deriving DecidableEq, Repr

/-- The two orders a status word's bytes could have (92_eei_decisions.md D9). -/
inductive ByteOrder where
  /-- Frame byte 0 is the more significant byte. -/
  | bigEndian
  /-- Frame byte 0 is the less significant byte. -/
  | littleEndian
deriving DecidableEq, Repr

/-- The binary64 operations of 00_scope.md R12. -/
inductive FloatOp where
  | mul
  | div
  | sub
deriving DecidableEq, Repr

/-- `OPWORD_WIDTH` (00_scope.md R7, D3). -/
def Config.opwordWidth : Nat := 64

/-- `OPCODE_WIDTH`, word bits [63:60] (00_scope.md R7, D3). -/
def Config.opcodeWidth : Nat := 4

/-- The CRC polynomial, the bits below x^8 (00_scope.md R6, 40_crc.md R110). -/
def Config.crcPoly : Byte := 0x31

/-- The CRC's initial register value (00_scope.md R6, 40_crc.md R111). -/
def Config.crcInit : Byte := 0xFF

/-- `ACC_RESET` (00_scope.md R7, D5). -/
def Config.accReset : Byte := 0xFF

/-- `NAN_BITS`, the undefined sentinel (00_scope.md R7, D11; 41_measurement_decoder.md R135). -/
def Config.nanBits : F64 := 0x7FF8000000000000

/-- `TEMP_EVAL`, decided `PER_OP` (00_scope.md R7, D10). -/
def Config.tempEval : TempEval := .perOp

/-- `STATUS_BYTE_ORDER`, decided big-endian (00_scope.md R7, D9). -/
def Config.statusByteOrder : ByteOrder := .bigEndian

/-- The factor 175.0 of the temperature formula (00_scope.md R6, 41_measurement_decoder.md R133). -/
def Config.tempScale : Nat := 175

/-- The offset 45.0 of the temperature formula (00_scope.md R6, 41_measurement_decoder.md R133). -/
def Config.tempOffset : Nat := 45

/-- The factor 100.0 of the humidity formula (00_scope.md R6, 41_measurement_decoder.md R134). -/
def Config.humScale : Nat := 100

/-- The divisor 65535.0 of both formulas (00_scope.md R6). -/
def Config.countMax : Nat := 65535

/-- The part of `OP_LATENCY` above one cycle: any number (00_scope.md R8). No body. -/
opaque Config.extraLatency : Nat

/-- `OP_LATENCY`, "any positive integer" (00_scope.md R8). The model has no time and nothing depends on
it (70_reset_and_hazards.md R241; log entry 12). -/
def Config.opLatency : Nat := Config.extraLatency + 1

/-- FREE VALUE, log entry 9: sign and payload of the NaN that a binary64 operation gives on operands for
which IEEE-754 defines no number. No operation of the SFP presents such operands. No body. -/
opaque Config.invalidNaN : FloatOp → F64 → F64 → BitVec 52

end Sys2Proof
end

