-- ==== Sys2Proof/Machine/State.lean ====
section
/-! DEFINITION. The state of the SFP (10_state.md R20: "exactly the following state and nothing else";
R34 gives it as this record), the events its host can send it, its state after reset
(70_reset_and_hazards.md R230), and the reasons a run or a claim about it can stop. -/

namespace Sys2Proof.Machine

/-- What the host can do to the SFP: issue one operation word (00_scope.md R14, 20_memory.md R56) or
apply reset (70_reset_and_hazards.md R231). -/
inductive HostEvent where
  | word (w : Word)
  | reset
deriving DecidableEq, Repr

/-- The state. The fields from `acc` to `err` are the record of 10_state.md R34; where that rule calls a
register unspecified it is `none`, "hold no value" (R22, R27; log entries 4, 5). `input` is the model's own
(log entry 1). -/
structure State where
  /-- `ACC`, the CRC running register (R21). -/
  acc : Byte
  /-- `MV`, measurement valid (R22). -/
  mv : Bool
  /-- `T_OK`, the temperature CRC of the last MDEC matched (R23). -/
  tOk : Option Bool
  /-- `H_OK`, the humidity CRC of the last MDEC matched (R23). -/
  hOk : Option Bool
  /-- `T_VAL`, binary64 temperature in degrees Celsius or the sentinel (R24). -/
  tVal : Option F64
  /-- `H_VAL`, binary64 relative humidity in %RH or the sentinel (R24). -/
  hVal : Option F64
  /-- `SV`, status valid (R25). -/
  sv : Bool
  /-- `ST_OK`, the CRC of the last SDEC matched (R26). -/
  stOk : Option Bool
  /-- `ST_WORD`, the status word of the last SDEC, when its CRC matched (R27). -/
  stWord : Option Half
  /-- `ERR`, sticky: an illegal word was accepted (R28). -/
  err : Bool
  /-- What the host has issued and the SFP has not yet taken, oldest first (log entry 1). -/
  input : List HostEvent
deriving DecidableEq, Repr

/-- The state after reset (70_reset_and_hazards.md R230). -/
def State.reset : State where
  acc := Config.accReset
  mv := false
  tOk := none
  hOk := none
  tVal := none
  hVal := none
  sv := false
  stOk := none
  stWord := none
  err := false
  input := []

/-- The result registers that can hold no value (10_state.md R22 to R27). -/
inductive ResultRegister where
  | tOk
  | hOk
  | tVal
  | hVal
  | stOk
  | stWord
deriving DecidableEq, Repr

/-- Why a claim about the SFP must stop. No step answers one: the SFP never stops accepting operations
(60_exceptions.md R205; log entry 21). -/
inductive Fault where
  /-- The state has `ERR` = 1. Raised by `Sys2Proof.Safety.judge` alone (43_control.md R191: "A model that is to
  stay sound treats a state with `ERR` = 1 as faulted"). Safe: it only withholds a verdict. -/
  | illegalWordAccepted
  /-- A result register that holds no value was read directly. Raised by
  `Sys2Proof.Machine.readResult` alone (10_state.md R22: "a model that reads them faults"; R34: "reading one
  faults"; 92_eei_decisions.md D12; 93_implementation_defined.md U3, U4: "`fault` on read (typed `none`)").
  No operation and no output reads one. Safe: no value is made up. -/
  | unspecifiedRead (r : ResultRegister)
deriving DecidableEq, Repr

/-- Why an operation has no meaning in the model. -/
inductive Refusal where
  /-- Raised by exec's arm of an operation that is not modelled yet; no arm does. Safe. -/
  | notModelled (mnemonic : String)
deriving DecidableEq, Repr

end Sys2Proof.Machine
end

