-- ==== Sys2Proof/Machine/Ops.lean ====
section
/-! DEFINITION. The named operations on the state: register writes (10_state.md R20, each by the one
operation that may do it), the illegal-word outcome, which is all this hardware has of an exception
(60_exceptions.md R204, R207), reset, and taking the host's next event. There is no memory to operate on
(20_memory.md R50). -/

namespace Sys2Proof.Machine

/-- `ACC <- v` (10_state.md R21). -/
def State.writeAcc (s : State) (v : Byte) : State := { s with acc := v }

/-- MDEC's writes: `T_OK`, `T_VAL`, `H_OK`, `H_VAL` and `MV <- 1` (41_measurement_decoder.md R136). -/
def State.writeMeasurement (s : State) (tOk : Bool) (tVal : F64) (hOk : Bool) (hVal : F64) : State :=
  { s with mv := true, tOk := some tOk, tVal := some tVal, hOk := some hOk, hVal := some hVal }

/-- SDEC's writes: `ST_OK`, `ST_WORD` (no value on a mismatch) and `SV <- 1` (42_status_extractor.md
R161; log entry 5). -/
def State.writeStatus (s : State) (ok : Bool) (w : Half) : State :=
  { s with sv := true, stOk := some ok, stWord := if ok then some w else none }

/-- `raise Illegal(w)`: "exactly `ERR <- 1`; no other state changes" (43_control.md R191). Nothing of the
word is recorded (60_exceptions.md R204). -/
def State.raiseIllegal (s : State) (_w : Word) : State := { s with err := true }

/-- Reset: 70_reset_and_hazards.md R230 in full. What the host issues after it is the host's and stays
(log entry 11). -/
def State.applyReset (s : State) : State := { State.reset with input := s.input }

/-- The state with what the host has yet to send replaced. -/
def State.withInput (s : State) (events : List HostEvent) : State := { s with input := events }

/-- What the SFP takes next, with the state after taking it. -/
inductive Taken where
  /-- The host has issued nothing (log entry 2). -/
  | idle
  /-- A reset event. -/
  | reset (s : State)
  /-- A legal word. -/
  | legal (i : Instr) (s : State)
  /-- A word that matches no row of the opcode table. -/
  | illegal (w : Word) (s : State)
deriving DecidableEq, Repr

/-- Take the host's next event; a word is decoded (20_memory.md R58: in the order the host issues them,
one at a time). -/
def State.take (s : State) : Taken :=
  match s.input with
  | [] => .idle
  | .reset :: rest => .reset (s.withInput rest)
  | .word w :: rest =>
    match decode w with
    | .legal i => .legal i (s.withInput rest)
    | .illegal _ => .illegal w (s.withInput rest)

/-- The state in which the host issues `w` next, before whatever it was to send (log entry 3). -/
def State.issueNext (s : State) (w : Word) : State := s.withInput (.word w :: s.input)

end Sys2Proof.Machine
end

