-- ==== Sys2Proof/Machine/CrcFamily.lean ====
section
/-! DEFINITION. The CRC-8 generator's family: CRCINIT (40_crc.md R112) and CRCBYTE (R113). -/

namespace Sys2Proof.Machine

/-- CRCINIT: `ACC <- 0xFF` (R112). -/
def execCrcinit (s : State) : Host.Outcome State Fault Refusal :=
  .next (s.writeAcc Config.crcInit)

/-- CRCBYTE d: `ACC <- crc_byte(ACC, d)` (R113). -/
def execCrcbyte (d : Byte) (s : State) : Host.Outcome State Fault Refusal :=
  .next (s.writeAcc (crcByte s.acc d))

end Sys2Proof.Machine
end

