-- ==== Sys2Proof/Machine/Flags.lean ====
section
/-! DEFINITION. The flags' computations: the CRC check of each field. Each check starts from 0xFF and
neither reads nor writes `ACC` (92_eei_decisions.md D7). -/

namespace Sys2Proof.Machine

/-- The source's triplet check: `crc8([b0, b1]) = c` (40_crc.md R116). -/
def tripletMatches (b0 b1 c : Byte) : Bool := crc8 [b0, b1] == c

/-- `t_match` (41_measurement_decoder.md R132): the value of `T_OK`. -/
def tMatch (b0 b1 b2 : Byte) : Bool := tripletMatches b0 b1 b2

/-- `h_match` (41_measurement_decoder.md R132): the value of `H_OK`. -/
def hMatch (b3 b4 b5 : Byte) : Bool := tripletMatches b3 b4 b5

/-- `match` of SDEC (42_status_extractor.md R161): the value of `ST_OK`. -/
def stMatch (b0 b1 b2 : Byte) : Bool := tripletMatches b0 b1 b2

end Sys2Proof.Machine
end

