-- ==== Sys2Proof/Machine/Operands.lean ====
section
/-! DEFINITION. The operand forms: what the bytes of a frame stand for. The SFP has no addressing mode
and no immediate (43_control.md R194, 30_encoding.md R83); the decoder has already taken each byte from
its place in the operand. -/

namespace Sys2Proof.Machine

/-- The 16-bit number of two bytes, the first the more significant. -/
def bigEndian16 (hi lo : Byte) : Half := hi ++ lo

/-- `raw_t` = b0 ++ b1 (41_measurement_decoder.md R131, 20_memory.md R52). -/
def rawTemperature (b0 b1 : Byte) : Half := bigEndian16 b0 b1

/-- `raw_h` = b3 ++ b4 (41_measurement_decoder.md R131, 20_memory.md R52). -/
def rawHumidity (b3 b4 : Byte) : Half := bigEndian16 b3 b4

/-- The status word of a status frame in the order `STATUS_BYTE_ORDER` (20_memory.md R53, D9). -/
def statusWordIn (order : ByteOrder) (b0 b1 : Byte) : Half :=
  match order with
  | .bigEndian => bigEndian16 b0 b1
  | .littleEndian => bigEndian16 b1 b0

/-- The status word of a status frame (42_status_extractor.md R160). -/
def statusWord (b0 b1 : Byte) : Half := statusWordIn Config.statusByteOrder b0 b1

end Sys2Proof.Machine
end

