-- ==== Sys2Proof/Machine/Binary64.lean ====
section
/-! DEFINITION. IEEE-754 binary64 by exact arithmetic and one rounding to nearest, ties to even
(00_scope.md R12). Every finite binary64 value is a whole number of UNITS, one unit being 2^-1074, the
least positive binary64. A magnitude is rounded as an exact fraction of units, so no intermediate value
is ever inexact. Here "the bits" of a magnitude are its encoding without the sign, a number below 2^63,
which grows with the magnitude. Powers of two are written as shifts (`a <<< k` is a * 2^k, `a >>> k` is
a / 2^k), which Lean evaluates at once. -/

namespace Sys2Proof.Machine

/-- How many units the number 1 is: 2^1074. -/
def oneUnits : Nat := 1 <<< 1074

/-- The exponent field. -/
def expField (x : F64) : Nat := (x.extractLsb' 52 11).toNat

/-- The fraction field. -/
def fracField (x : F64) : Nat := (x.extractLsb' 0 52).toNat

/-- x is a NaN. -/
def isNaN (x : F64) : Bool := expField x == 2047 && fracField x != 0

/-- x is an infinity. -/
def isInf (x : F64) : Bool := expField x == 2047 && fracField x == 0

/-- x is finite: neither a NaN nor an infinity. -/
def isFinite (x : F64) : Bool := expField x != 2047

/-- The magnitude of a finite x, in units: fraction alone for exponent 0 (subnormals and zero), else
the fraction with its hidden bit, scaled by the exponent. -/
def magUnits (x : F64) : Nat :=
  if expField x = 0 then fracField x else (2 ^ 52 + fracField x) <<< (expField x - 1)

/-- The value of a finite x, in units. -/
def units (x : F64) : Int := if x.msb then -(magUnits x : Int) else (magUnits x : Int)

/-- n / d rounded to a whole number, ties to the even one. -/
def roundHalfEven (n d : Nat) : Nat :=
  let q := n / d
  let r := n % d
  if 2 * r < d then q
  else if d < 2 * r then q + 1
  else if q % 2 = 0 then q else q + 1

/-- The base-2 logarithm rounded down, `Nat.log2`, with the first 1024 halvings of a large number done at
once (Laws/Binary64.lean: `unitsLog2_eq`). -/
def unitsLog2 (q : Nat) : Nat :=
  if q >>> 1024 = 0 then Nat.log2 q else 1024 + Nat.log2 (q >>> 1024)

/-- How far n / d units reach beyond 53 significant bits: a value of n / d units is kept to a multiple of
2 to this power. 0 for values that binary64 keeps to the unit. -/
def roundShift (n d : Nat) : Nat := unitsLog2 (n / d) - 52

/-- The bits of the magnitude of n / d units, rounded to the nearest binary64, ties to even; past the
largest finite value, infinity. With k the shift and m the kept digits, k * 2^52 + m is the encoding
whether m has its hidden bit or is subnormal, and a carry out of m moves to the next exponent. -/
def roundUnits (n d : Nat) : Nat :=
  let k := roundShift n d
  min (k * 2 ^ 52 + roundHalfEven n (d <<< k)) (2047 * 2 ^ 52)

/-- A binary64 from its sign and the bits of its magnitude. -/
def packF64 (neg : Bool) (mag : Nat) : F64 := BitVec.ofBool neg ++ BitVec.ofNat 63 mag

/-- `RNE64(q)` of the exact rational q = num / den, den > 0 (00_scope.md R12). -/
def rne64 (num : Int) (den : Nat) : F64 :=
  packF64 (decide (num < 0)) (roundUnits (num.natAbs * oneUnits) den)

/-- `f64(n)`: the binary64 value of n, exact below 2^53 (00_scope.md R12). -/
def f64 (n : Nat) : F64 := rne64 n 1

/-- A quiet NaN with free sign and payload (log entry 9). -/
def invalidResult (op : FloatOp) (a b : F64) : F64 :=
  let free := Config.invalidNaN op a b
  free.extractLsb' 51 1 ++ (0xFFF#12 ++ free.extractLsb' 0 51)

/-- An infinity. -/
def infF64 (neg : Bool) : F64 := packF64 neg (2047 * 2 ^ 52)

/-- `fmul` (00_scope.md R12). -/
def fmul (a b : F64) : F64 :=
  let neg := a.msb ^^ b.msb
  if isNaN a || isNaN b then invalidResult .mul a b
  else if isInf a then (if isFinite b && magUnits b == 0 then invalidResult .mul a b else infF64 neg)
  else if isInf b then (if magUnits a == 0 then invalidResult .mul a b else infF64 neg)
  else packF64 neg (roundUnits (magUnits a * magUnits b) oneUnits)

/-- `fdiv` (00_scope.md R12). -/
def fdiv (a b : F64) : F64 :=
  let neg := a.msb ^^ b.msb
  if isNaN a || isNaN b then invalidResult .div a b
  else if isInf a then (if isInf b then invalidResult .div a b else infF64 neg)
  else if isInf b then packF64 neg 0
  else if magUnits b = 0 then (if magUnits a = 0 then invalidResult .div a b else infF64 neg)
  else packF64 neg (roundUnits (magUnits a * oneUnits) (magUnits b))

/-- `fsub` (00_scope.md R12). An exact zero difference is +0, but (-0) - (+0) is -0. -/
def fsub (a b : F64) : F64 :=
  let diff := units a - units b
  if isNaN a || isNaN b then invalidResult .sub a b
  else if isInf a then (if isInf b && a.msb == b.msb then invalidResult .sub a b else infF64 a.msb)
  else if isInf b then infF64 (!b.msb)
  else if diff = 0 then packF64 (a.msb && !b.msb) 0
  else packF64 (decide (diff < 0)) (roundUnits diff.natAbs 1)

end Sys2Proof.Machine
end

