-- ==== Sys2Proof/Machine/Transfer.lean ====
section
/-! DEFINITION. The linear transfer functions (41_measurement_decoder.md R133, R134, R139) and the
sentinel of a field whose CRC does not match (R135). -/

namespace Sys2Proof.Machine

/-- `temp` under `TEMP_EVAL` = `PER_OP`: `((175.0 * raw) / 65535.0) - 45.0`, left to right, each
operation rounded (R133). -/
def tempPerOp (raw : Half) : F64 :=
  fsub (fdiv (fmul (f64 Config.tempScale) (f64 raw.toNat)) (f64 Config.countMax)) (f64 Config.tempOffset)

/-- `temp` under `TEMP_EVAL` = `SINGLE`: `RNE64(175*raw/65535 - 45)` (R139). -/
def tempSingle (raw : Half) : F64 :=
  rne64 ((Config.tempScale * raw.toNat : Int) - Config.tempOffset * Config.countMax) Config.countMax

/-- `temp` under the given reading. -/
def tempUnder (reading : TempEval) (raw : Half) : F64 :=
  match reading with
  | .perOp => tempPerOp raw
  | .single => tempSingle raw

/-- `bits64(temp(raw_t))`, degrees Celsius (R133, D10). -/
def temp (raw : Half) : F64 := tempUnder Config.tempEval raw

/-- `bits64(hum(raw_h))`, %RH: `(100.0 * raw) / 65535.0` (R134). -/
def hum (raw : Half) : F64 :=
  fdiv (fmul (f64 Config.humScale) (f64 raw.toNat)) (f64 Config.countMax)

/-- A field's value: the formula's result when its CRC matches, else the sentinel (R135). -/
def gated (ok : Bool) (value : F64) : F64 := if ok then value else Config.nanBits

end Sys2Proof.Machine
end

