-- ==== Sys2Proof/Machine/Measurement.lean ====
section
/-! DEFINITION. The measurement decoder's operation: MDEC (41_measurement_decoder.md R136). -/

namespace Sys2Proof.Machine

/-- MDEC: both fields checked and decoded, each from its own three bytes (R136, R137). A mismatch is
reported as the flag and the sentinel, never as an exception (60_exceptions.md R201). -/
def execMdec (b0 b1 b2 b3 b4 b5 : Byte) (s : State) : Host.Outcome State Fault Refusal :=
  let tOk := tMatch b0 b1 b2
  let hOk := hMatch b3 b4 b5
  .next (s.writeMeasurement tOk (gated tOk (temp (rawTemperature b0 b1)))
    hOk (gated hOk (hum (rawHumidity b3 b4))))

end Sys2Proof.Machine
end

