-- ==== Sys2Proof/Machine/Status.lean ====
section
/-! DEFINITION. The status field extractor's operation: SDEC (42_status_extractor.md R161). -/

namespace Sys2Proof.Machine

/-- SDEC: the frame checked, and its word kept when the CRC matches (R161). -/
def execSdec (b0 b1 b2 : Byte) (s : State) : Host.Outcome State Fault Refusal :=
  .next (s.writeStatus (stMatch b0 b1 b2) (statusWord b0 b1))

end Sys2Proof.Machine
end

