-- ==== Sys2Proof/Machine/Dispatch.lean ====
section
/-! DEFINITION. What each operation does: one arm per constructor of Instr. -/

namespace Sys2Proof.Machine

def exec (i : Instr) (s : State) : Host.Outcome State Fault Refusal :=
  match i with
  | .nop => Sys2Proof.Machine.execNop s
  | .crcinit => Sys2Proof.Machine.execCrcinit s
  | .crcbyte d => Sys2Proof.Machine.execCrcbyte d s
  | .mdec b0 b1 b2 b3 b4 b5 => Sys2Proof.Machine.execMdec b0 b1 b2 b3 b4 b5 s
  | .sdec b0 b1 b2 => Sys2Proof.Machine.execSdec b0 b1 b2 s

end Sys2Proof.Machine
end

