-- ==== Sys2Proof/Machine/Step.lean ====
section
/-! DEFINITION. One step of the SFP: it takes the host's next event and applies it whole
(00_scope.md R14, 20_memory.md R56, R58). -/

namespace Sys2Proof.Machine

/-- One step: a legal word is executed, an illegal word sets `ERR` (43_control.md R191), reset applies
70_reset_and_hazards.md R230, and with nothing issued the state stays (log entry 2). -/
def step (s : State) : Host.Outcome State Fault Refusal :=
  match s.take with
  | .idle => .next s
  | .reset t => .next t.applyReset
  | .legal i t => exec i t
  | .illegal w t => .next (t.raiseIllegal w)

/-- The state in which the word of bits `w`, numbered as the opcode table numbers them, is the host's
next one (log entries 3, 19). -/
def State.withFetchWord (s : State) (nbits w : Nat) : State := s.issueNext (tableWord nbits w)

end Sys2Proof.Machine
end

