-- ==== Sys2Proof/WellFormed.lean ====
section
/-! DEFINITION. What a well-formed term is. An `Instr` carries its operands as bytes, so each of its
terms is well formed: the machine's syntax cannot hold an operand out of range (30_encoding.md R83:
"every field is taken as an unsigned byte"). The checks are on the assembler's lines, whose operands
are numbers (30_encoding.md R86: "each byte operand in 0 to 255"; R87: "t, h in 0 to 65535"). -/

namespace Sys2Proof

/-- Every operation is well formed; each operand's range is its type's. -/
def Instr.wellFormed : Instr → Bool
  | .nop => true
  | .crcinit => true
  | .crcbyte _ => true
  | .mdec _ _ _ _ _ _ => true
  | .sdec _ _ _ => true

/-- A byte operand: 0 to 255. -/
def isByteOperand (n : Nat) : Bool := decide (n < 2 ^ 8)

/-- A raw count or status word operand: 0 to 65535. -/
def isHalfOperand (n : Nat) : Bool := decide (n < 2 ^ 16)

/-- The operand of `.word`: a 64-bit value. -/
def isWordOperand (n : Nat) : Bool := decide (n < 2 ^ 64)

/-- The operand ranges of 30_encoding.md R86 and R87. -/
def AsmLine.wellFormed : AsmLine → Bool
  | .nop => true
  | .crcinit => true
  | .crcbyte d => isByteOperand d
  | .mdec b0 b1 b2 b3 b4 b5 => [b0, b1, b2, b3, b4, b5].all isByteOperand
  | .sdec b0 b1 b2 => [b0, b1, b2].all isByteOperand
  | .rawWord v => isWordOperand v
  | .crcOf bytes => bytes.all isByteOperand
  | .mframe t h => isHalfOperand t && isHalfOperand h
  | .sframe w => isHalfOperand w

end Sys2Proof
end

