-- ==== Sys2Proof/Machine/Assembler.lean ====
section
/-! DEFINITION. The assembler of 30_encoding.md R86 and R87: from a line's text to a line, and from a
line to operation words. The text's finer points are log entry 17. -/

namespace Sys2Proof.Machine

/-- A number as a byte operand. -/
def byteOf (n : Nat) : Byte := BitVec.ofNat 8 n

/-- Bits [15:8] of a 16-bit number. -/
def highByte (n : Nat) : Byte := BitVec.ofNat 8 (n / 256)

/-- Bits [7:0] of a 16-bit number. -/
def lowByte (n : Nat) : Byte := BitVec.ofNat 8 n

/-- The CRC byte of a 16-bit number's two bytes (R87, with `crc8` of 40_crc.md R111). -/
def checkByte (n : Nat) : Byte := crc8 [highByte n, lowByte n]

/-- The operations of a line but `.word` (R86, R87). -/
def lineOperations : AsmLine → List Instr
  | .nop => [.nop]
  | .crcinit => [.crcinit]
  | .crcbyte d => [.crcbyte (byteOf d)]
  | .mdec b0 b1 b2 b3 b4 b5 =>
    [.mdec (byteOf b0) (byteOf b1) (byteOf b2) (byteOf b3) (byteOf b4) (byteOf b5)]
  | .sdec b0 b1 b2 => [.sdec (byteOf b0) (byteOf b1) (byteOf b2)]
  | .rawWord _ => []
  | .crcOf bytes => .crcinit :: bytes.map fun b => .crcbyte (byteOf b)
  | .mframe t h =>
    [.mdec (highByte t) (lowByte t) (checkByte t) (highByte h) (lowByte h) (checkByte h)]
  | .sframe w => [.sdec (highByte w) (lowByte w) (checkByte w)]

/-- The words of a line, `none` where an operand is out of its range (R86, R87). "The assembler sets every
reserved and unused bit to 0; only `.word` can spell an illegal word" (R86). -/
def assemble (line : AsmLine) : Option (List Word) :=
  if line.wellFormed then
    match line with
    | .rawWord v => some [BitVec.ofNat 64 v]
    | other => some ((lineOperations other).map encode)
  else none

/-- What a line of text holds. -/
inductive ParsedLine where
  /-- Nothing, or a comment alone. -/
  | blank
  | line (l : AsmLine)
  /-- Not a line of R86 or R87. -/
  | bad
deriving DecidableEq, Repr

/-- The text before a comment: "`;` starts a comment" (R86). -/
def dropComment (cs : List Char) : List Char := cs.takeWhile (fun c => c != ';')

/-- A space or tab (log entry 17). -/
def isBlankChar (c : Char) : Bool := c == ' ' || c == '\t'

/-- The text without blanks at its two ends. -/
def trimChars (cs : List Char) : List Char :=
  ((cs.dropWhile isBlankChar).reverse.dropWhile isBlankChar).reverse

/-- The digits in the order of their values; a base's digits are the first `base` of them. -/
def digitChars : List Char := "0123456789abcdef".toList

/-- The value of a digit of a base, a letter being of either case (log entry 17). -/
def digitOf (base : Nat) (c : Char) : Option Nat := (digitChars.take base).findIdx? fun d => d == c.toLower

/-- The number a literal's digits spell in a base, first digit most significant: "`_` inside a literal is a
digit separator" (00_scope.md R9), which stands between two digits (log entry 17). -/
def numberIn (base : Nat) (cs : List Char) : Option Nat :=
  let groups := cs.splitOn '_'
  if groups.any List.isEmpty then none
  else (groups.flatten.mapM (digitOf base)).map fun values => values.foldl (fun n v => base * n + v) 0

/-- "numbers decimal or `0x` hex" (R86). -/
def parseNumber : List Char → Option Nat
  | '0' :: 'x' :: digits => numberIn 16 digits
  | digits => numberIn 10 digits

/-- The operands of a line, separated by commas; none in a blank text. -/
def parseOperands (cs : List Char) : Option (List Nat) :=
  if trimChars cs = [] then some []
  else (cs.splitOn ',').mapM fun piece => parseNumber (trimChars piece)

/-- A line from its mnemonic and operands (R86, R87). -/
def lineOf (mnemonic : List Char) (operands : List Nat) : ParsedLine :=
  if mnemonic = "crc8".toList then .line (.crcOf operands)
  else match operands with
    | [] => if mnemonic = "nop".toList then .line .nop
      else if mnemonic = "crcinit".toList then .line .crcinit else .bad
    | [a] => if mnemonic = "crcbyte".toList then .line (.crcbyte a)
      else if mnemonic = ".word".toList then .line (.rawWord a)
      else if mnemonic = "sframe".toList then .line (.sframe a) else .bad
    | [a, b] => if mnemonic = "mframe".toList then .line (.mframe a b) else .bad
    | [a, b, c] => if mnemonic = "sdec".toList then .line (.sdec a b c) else .bad
    | [a, b, c, d, e, f] => if mnemonic = "mdec".toList then .line (.mdec a b c d e f) else .bad
    | _ => .bad

/-- One line of assembly text: "one operation per line" (R86). -/
def parseLine (text : List Char) : ParsedLine :=
  let body := trimChars (dropComment text)
  if body = [] then .blank
  else
    match parseOperands (body.dropWhile fun c => !isBlankChar c) with
    | some operands => lineOf (body.takeWhile fun c => !isBlankChar c) operands
    | none => .bad

/-- The words of a line of assembly text, `none` where it is not a line or an operand is out of range. -/
def assembleText (text : List Char) : Option (List Word) :=
  match parseLine text with
  | .blank => some []
  | .line l => assemble l
  | .bad => none

end Sys2Proof.Machine
end

