-- ==== Sys2Proof/Machine/HostContext.lean ====
section
/-! DEFINITION. The host's side, which the spec keeps as context "so that a model of the host, or of a
whole reading, has them" (20_memory.md section 5; 00_scope.md R5 puts it outside the SFP). Nothing here
is state of the SFP: it says which sequences of the host's actions keep the host's obligations
(20_memory.md R60 to R67, 30_encoding.md R89, 70_reset_and_hazards.md R235 to R239, R242 to R244) and
which operation words a sequence issues. -/

namespace Sys2Proof.Machine

/-- The sensor's eleven commands (30_encoding.md R89). -/
inductive SensorCommand where
  | measureHighRep (clockStretching : Bool)
  | measureMedRep (clockStretching : Bool)
  | measureLowRep (clockStretching : Bool)
  | readStatus
  | clearStatus
  | softReset
  | heaterOn
  | heaterOff
deriving DecidableEq, Repr

/-- The closed set (30_encoding.md R89). -/
def sensorCommands : List SensorCommand :=
  [ .measureHighRep false, .measureMedRep false, .measureLowRep false,
    .measureHighRep true, .measureMedRep true, .measureLowRep true,
    .readStatus, .clearStatus, .softReset, .heaterOn, .heaterOff ]

/-- The command's 16-bit opcode. 0x2400 is the source's; the others are PRESUMED: the spec marks them
general knowledge (30_encoding.md R89; log entry 14). -/
def SensorCommand.opcode : SensorCommand → Half
  | .measureHighRep false => 0x2400
  | .measureMedRep false => 0x240B
  | .measureLowRep false => 0x2416
  | .measureHighRep true => 0x2C06
  | .measureMedRep true => 0x2C0D
  | .measureLowRep true => 0x2C10
  | .readStatus => 0xF32D
  | .clearStatus => 0x3041
  | .softReset => 0x30A2
  | .heaterOn => 0x306D
  | .heaterOff => 0x3066

/-- The response's length in bytes (20_memory.md R62). -/
def SensorCommand.responseLength : SensorCommand → Nat
  | .measureHighRep _ => 6
  | .measureMedRep _ => 6
  | .measureLowRep _ => 6
  | .readStatus => 3
  | .clearStatus => 0
  | .softReset => 0
  | .heaterOn => 0
  | .heaterOff => 0

/-- The command of an opcode, `none` where no command has it. -/
def commandOf (opcode : Half) : Option SensorCommand := sensorCommands.find? fun c => c.opcode == opcode

/-- The default device address (20_memory.md R66). -/
def defaultAddress : BitVec 7 := 0x44

/-- The default bus index (20_memory.md R66). -/
def defaultBusIndex : Nat := 1

/-- Milliseconds owed after construction (70_reset_and_hazards.md R235). -/
def powerOnWait : Nat := 50

/-- Milliseconds owed after SoftReset (70_reset_and_hazards.md R236). -/
def softResetWait : Nat := 10

/-- Milliseconds owed before a measurement is read (70_reset_and_hazards.md R237). -/
def conversionWait : Nat := 15

/-- What the host does: the transport's two operations (20_memory.md R60), a wait, and the use of the SFP.
The bytes a read returns are an argument, any bytes at all, which is the free draw of
70_reset_and_hazards.md R238. Either operation may end in a TransportFailure, a "bus-level I/O error"
(20_memory.md R65; 60_exceptions.md R200, R203): a write with `delivered` = false, a read with the result
`none` (that both can is the model's choice, log entry 23). -/
inductive HostAction where
  /-- The device handle is constructed. -/
  | construct
  | wait (ms : Nat)
  | write (address : BitVec 7) (registerByte dataByte : Byte) (delivered : Bool)
  | readBlock (address : BitVec 7) (registerByte : Byte) (length : Nat) (result : Option (List Byte))
  /-- An operation word is issued to the SFP. -/
  | issue (w : Word)
  /-- The SFP's outputs are read. -/
  | readOutputs
deriving DecidableEq, Repr

/-- The write that sends a command, high byte as register byte and low byte as data byte (20_memory.md R61),
delivered or failed. -/
def sendCommand (address : BitVec 7) (c : SensorCommand) (delivered : Bool) : HostAction :=
  .write address (c.opcode.extractLsb' 8 8) (c.opcode.extractLsb' 0 8) delivered

/-- The operation that hands a response over, its bytes unchanged and in order (20_memory.md R64): a
measurement response to MDEC, a status response to SDEC. A transport failure gives no operation
(20_memory.md R65), nor do bytes of another number (93_implementation_defined.md U12). -/
def handOver (c : SensorCommand) (result : Option (List Byte)) : Option Instr :=
  match c.responseLength, result with
  | 6, some [b0, b1, b2, b3, b4, b5] => some (.mdec b0 b1 b2 b3 b4 b5)
  | 3, some [b0, b1, b2] => some (.sdec b0 b1 b2)
  | _, _ => none

/-- What the host still owes: waits in milliseconds, and the command whose response it has to read. -/
structure HostPhase where
  address : BitVec 7
  constructed : Bool
  powerOnOwed : Nat
  resetOwed : Nat
  conversionOwed : Nat
  awaiting : Option SensorCommand
deriving DecidableEq, Repr

/-- Before the device handle is constructed. -/
def HostPhase.start (address : BitVec 7) : HostPhase := ⟨address, false, 0, 0, 0, none⟩

/-- A new command may be issued: the settling waits are over (70_reset_and_hazards.md R235, R236) and no
earlier command's wait and read are outstanding (R239). -/
def HostPhase.mayCommand (p : HostPhase) : Bool :=
  p.constructed && p.powerOnOwed == 0 && p.resetOwed == 0 && p.awaiting.isNone

/-- What a command leaves owed (70_reset_and_hazards.md R236, R237; a status read owes no conversion time,
log entry 16). -/
def HostPhase.afterCommand (p : HostPhase) (c : SensorCommand) : HostPhase :=
  match c.responseLength with
  | 6 => { p with awaiting := some c, conversionOwed := conversionWait }
  | 3 => { p with awaiting := some c }
  | _ => if c = .softReset then { p with resetOwed := softResetWait } else p

/-- What a wait leaves owed; waits add up (log entry 16). -/
def HostPhase.afterWait (p : HostPhase) (ms : Nat) : HostPhase :=
  { p with powerOnOwed := p.powerOnOwed - ms, resetOwed := p.resetOwed - ms,
           conversionOwed := p.conversionOwed - ms }

/-- The register byte of a response's read: 0 for a measurement (20_memory.md R63); for the status read
the spec has none, so any (91_not_in_source.md; log entry 15). -/
def readRegisterOk (c : SensorCommand) (registerByte : Byte) : Bool :=
  c.responseLength != 6 || registerByte == 0

/-- The phase after a write to the host's own address. A failed write sends no command and leaves nothing
owed (log entry 23); a command that is none of the eleven breaks the sequence (log entry 16). -/
def HostPhase.allowsWrite (p : HostPhase) (opcode : Half) (delivered : Bool) : Option HostPhase :=
  match commandOf opcode with
  | some c => if p.mayCommand then some (if delivered then p.afterCommand c else p) else none
  | none => none

/-- The phase after a read from the host's own address. Whatever it returned, or if it failed, the read is
over and its command's sequence with it (log entry 23); a read with no response outstanding, or of another
length, breaks the sequence (log entry 25). -/
def HostPhase.allowsRead (p : HostPhase) (registerByte : Byte) (length : Nat) : Option HostPhase :=
  match p.awaiting with
  | some c =>
    if length == c.responseLength && p.conversionOwed == 0 && readRegisterOk c registerByte then
      some { p with awaiting := none }
    else none
  | none => none

/-- The phase after an action that keeps the host's obligations, `none` after one that breaks one
(70_reset_and_hazards.md R244: constraints on the sequence). What the spec leaves open here is the model's
choice: log entry 16 (waits, construction, unknown commands), 23 (what a TransportFailure leaves owed), 24
(traffic on another address, which 20_memory.md R67 does not bar, changes nothing), 25 (a read that no
command asked for) and 26 (any word may be issued at any time: whether its bytes are those that a read returned,
20_memory.md R64, is not followed here). -/
def HostPhase.allows (p : HostPhase) (a : HostAction) : Option HostPhase :=
  match a with
  | .construct => if p.constructed then none else some { p with constructed := true, powerOnOwed := powerOnWait }
  | .wait ms => some (p.afterWait ms)
  | .write address registerByte dataByte delivered =>
    if address = p.address then p.allowsWrite (registerByte ++ dataByte) delivered else some p
  | .readBlock address registerByte length _ =>
    if address = p.address then p.allowsRead registerByte length else some p
  | .issue _ => some p
  | .readOutputs => some p

/-- The phase after a sequence of actions. -/
def HostPhase.allowsAll : HostPhase → List HostAction → Option HostPhase
  | p, [] => some p
  | p, a :: rest =>
    match p.allows a with
    | some q => q.allowsAll rest
    | none => none

/-- The driver's logical states (70_reset_and_hazards.md R243). -/
inductive DriverState where
  | uninitialized
  | ready
  | awaitingConversion
deriving DecidableEq, Repr

/-- The driver's state in a phase (70_reset_and_hazards.md R243). The source names none while a SoftReset
settles (R234: to Ready "after its own settling delay"; log entry 16). -/
def HostPhase.driverState (p : HostPhase) : Option DriverState :=
  if !p.constructed || p.powerOnOwed != 0 then some .uninitialized
  else if p.resetOwed != 0 then none
  else match p.awaiting with
    | some c => if c.responseLength = 6 then some .awaitingConversion else some .ready
    | none => some .ready

/-- What the host does with a response: hand it over and read the outputs, or nothing. -/
def useResponse (c : SensorCommand) (result : Option (List Byte)) : List HostAction :=
  match handOver c result with
  | some i => [.issue (encode i), .readOutputs]
  | none => []

/-- One reading with a command that has a response, steps 2 to 6 (70_reset_and_hazards.md R242: "A status
read is the same"), with the shortest wait of step 3 (log entry 27). After a failed write it ends: a failure is "propagated to the caller" (20_memory.md R65;
log entry 23). -/
def reading (c : SensorCommand) (address : BitVec 7) (registerByte : Byte) (delivered : Bool)
    (result : Option (List Byte)) : List HostAction :=
  sendCommand address c delivered ::
    if delivered then
      [.wait conversionWait, .readBlock address registerByte c.responseLength result] ++ useResponse c result
    else []

/-- One measurement reading (70_reset_and_hazards.md R242; 20_memory.md R63). -/
def measurementReading (address : BitVec 7) (delivered : Bool) (result : Option (List Byte)) : List HostAction :=
  reading (.measureHighRep false) address 0 delivered result

/-- A status read (70_reset_and_hazards.md R242), with any register byte (log entry 15). -/
def statusReading (address : BitVec 7) (registerByte : Byte) (delivered : Bool)
    (result : Option (List Byte)) : List HostAction :=
  reading .readStatus address registerByte delivered result

/-- Step 1 (70_reset_and_hazards.md R242), with its shortest wait (log entry 27). -/
def powerOn : List HostAction := [.construct, .wait powerOnWait]

/-- Step 1 and one measurement reading (70_reset_and_hazards.md R242). -/
def firstReading (address : BitVec 7) (delivered : Bool) (result : Option (List Byte)) : List HostAction :=
  powerOn ++ measurementReading address delivered result

/-- The events a sequence of the host's actions gives the SFP (20_memory.md R64, R65; the sensor's
SoftReset is none of them, 70_reset_and_hazards.md R234). -/
def sfpEvents (actions : List HostAction) : List HostEvent :=
  actions.filterMap fun a => match a with
    | .issue w => some (.word w)
    | _ => none

end Sys2Proof.Machine
end

