-- ==== Sys2Proof/Machine/Outputs.lean ====
section
/-! DEFINITION. The outputs: functions of the state that change nothing (10_state.md R30, R31;
42_status_extractor.md R163), and the lines at the pins (R30). -/

namespace Sys2Proof.Machine

/-- The seven named status bits with a predicate output (42_status_extractor.md R163). -/
inductive Predicate where
  | dataCrcError
  | commandError
  | resetDetected
  | temperatureAlert
  | humidityAlert
  | heaterActive
  | alertPending
deriving DecidableEq, Repr

/-- The predicate's bit of `ST_WORD` (10_state.md R27, 42_status_extractor.md R163). -/
def Predicate.bit : Predicate → Nat
  | .dataCrcError => 0
  | .commandError => 1
  | .resetDetected => 4
  | .temperatureAlert => 10
  | .humidityAlert => 11
  | .heaterActive => 13
  | .alertPending => 15

/-- The predicate's mask (10_state.md R27, 42_status_extractor.md R163). -/
def Predicate.mask : Predicate → Half
  | .dataCrcError => 0x0001
  | .commandError => 0x0002
  | .resetDetected => 0x0010
  | .temperatureAlert => 0x0400
  | .humidityAlert => 0x0800
  | .heaterActive => 0x2000
  | .alertPending => 0x8000

/-- A tri-state value (00_scope.md R13): `UNKNOWN` is distinct from `FALSE`. -/
inductive Tri where
  | isTrue
  | isFalse
  | unknown
deriving DecidableEq, Repr

/-- `st_state` (10_state.md R30). -/
inductive StState where
  | empty
  | absent
  | present
deriving DecidableEq, Repr

/-- What `out_meas` shows when it shows something. -/
structure MeasOut where
  tOk : Bool
  tVal : F64
  hOk : Bool
  hVal : F64
deriving DecidableEq, Repr

/-- `out_crc` (10_state.md R30). -/
def outCrc (s : State) : Byte := s.acc

/-- `out_err` (10_state.md R30). -/
def outErr (s : State) : Bool := s.err

/-- `out_meas` (10_state.md R30). With `MV` = 1 and a result register without a value, a state no run
reaches, it shows nothing (log entry 10). -/
def outMeas (s : State) : Option MeasOut :=
  match s.mv, s.tOk, s.tVal, s.hOk, s.hVal with
  | true, some tOk, some tVal, some hOk, some hVal => some ⟨tOk, tVal, hOk, hVal⟩
  | _, _, _, _, _ => none

/-- `st_state` (10_state.md R30). With `SV` = 1 and no value in `ST_OK`, a state no run reaches, it is
ABSENT (log entry 10). -/
def stState (s : State) : StState :=
  if s.sv then (if s.stOk = some true then .present else .absent) else .empty

/-- `out_status` (10_state.md R30). -/
def outStatus (s : State) : Option Half := if stState s = .present then s.stWord else none

/-- `out_pred_<name>` (10_state.md R30): the bit of the word when there is one, else UNKNOWN
(42_status_extractor.md R162, R164). -/
def outPred (p : Predicate) (s : State) : Tri :=
  match outStatus s with
  | some w => if w.getLsbD p.bit then .isTrue else .isFalse
  | none => .unknown

/-- A direct read of a result register, which faults when the register holds no value (10_state.md R22: "a
model that reads them faults"; R34; 93_implementation_defined.md U3, U4: "`fault` on read (typed `none`)"). -/
def readResult {α : Type} (r : ResultRegister) (held : Option α) : Except Fault α :=
  match held with
  | some v => .ok v
  | none => .error (.unspecifiedRead r)

/-- The line `crc_out[7:0]` (10_state.md R30, "At the pins"). -/
def pinCrcOut (s : State) : Byte := outCrc s

/-- The line `err`. -/
def pinErr (s : State) : Bool := outErr s

/-- The line `meas_valid` (= `MV`). -/
def pinMeasValid (s : State) : Bool := s.mv

/-- A data line under its qualifying line: while that is inactive it "carries an unspecified value", and
the model exposes none (93_implementation_defined.md U5; log entry 13). -/
def qualified {α : Type} (active : Bool) (held : Option α) : Option α := if active then held else none

/-- The line `t_ok`. -/
def pinTOk (s : State) : Option Bool := qualified (pinMeasValid s) s.tOk

/-- The lines `t_val[63:0]`. -/
def pinTVal (s : State) : Option F64 := qualified (pinMeasValid s) s.tVal

/-- The line `h_ok`. -/
def pinHOk (s : State) : Option Bool := qualified (pinMeasValid s) s.hOk

/-- The lines `h_val[63:0]`. -/
def pinHVal (s : State) : Option F64 := qualified (pinMeasValid s) s.hVal

/-- The lines `st_state[1:0]`: 00 EMPTY, 01 ABSENT, 10 PRESENT. -/
def pinStState (s : State) : BitVec 2 :=
  match stState s with
  | .empty => 0b00
  | .absent => 0b01
  | .present => 0b10

/-- The lines `st_word[15:0]`. -/
def pinStWord (s : State) : Option Half := qualified (decide (stState s = .present)) s.stWord

/-- The line `pred_<name>_known` (42_status_extractor.md R164: 0 for UNKNOWN). -/
def pinPredKnown (p : Predicate) (s : State) : Bool :=
  match outPred p s with
  | .isTrue => true
  | .isFalse => true
  | .unknown => false

/-- The line `pred_<name>`. -/
def pinPred (p : Predicate) (s : State) : Option Bool :=
  match outPred p s with
  | .isTrue => some true
  | .isFalse => some false
  | .unknown => none

/-- The level a data line carries: what it shows, and any value at all, `idle`, while it shows nothing ("the
hardware lines carry `any value`", 93_implementation_defined.md U3; `any value`, U5; "carries an unspecified
value", 10_state.md R30). The value is an argument, a free draw that nothing constrains (log entry 13). -/
def lineLevel {α : Type} (shown : Option α) (idle : α) : α := shown.getD idle

/-- The level of the line `t_ok`. -/
def levelTOk (idle : Bool) (s : State) : Bool := lineLevel (pinTOk s) idle

/-- The levels of the lines `t_val[63:0]`. -/
def levelTVal (idle : F64) (s : State) : F64 := lineLevel (pinTVal s) idle

/-- The level of the line `h_ok`. -/
def levelHOk (idle : Bool) (s : State) : Bool := lineLevel (pinHOk s) idle

/-- The levels of the lines `h_val[63:0]`. -/
def levelHVal (idle : F64) (s : State) : F64 := lineLevel (pinHVal s) idle

/-- The levels of the lines `st_word[15:0]`. -/
def levelStWord (idle : Half) (s : State) : Half := lineLevel (pinStWord s) idle

/-- The level of the line `pred_<name>`. -/
def levelPred (p : Predicate) (idle : Bool) (s : State) : Bool := lineLevel (pinPred p s) idle

end Sys2Proof.Machine
end

