-- ==== Sys2Proof/Safety.lean ====
section
/-! DEFINITION. What claims are stated in: when a state counts as faulted (43_control.md R191), the
invariant of every reachable state (10_state.md R32), and the history R32.3 speaks of. -/

namespace Sys2Proof.Safety

open Sys2Proof.Machine

/-- A safe state: `ERR` = 0 (43_control.md R191: a claim about a program takes "`ERR` = 0 at the end" as
a premise). -/
def isSafe (s : State) : Bool := !s.err

/-- The verdict on a state that a run ends in: a state with `ERR` = 1 counts as faulted
(43_control.md R191, 93_implementation_defined.md U6). The machine itself goes on from it. -/
def judge (s : State) : Host.Outcome State Fault Refusal :=
  if s.err then .fault .illegalWordAccepted else .next s

/-- A field of a measurement (10_state.md R32.1 and R32.2): a field whose flag is 0 holds the sentinel,
and a field whose flag is 1 holds a finite value of lo to hi, which is then not the sentinel. -/
def fieldInv (lo hi : Int) (ok : Bool) (v : F64) : Bool :=
  if ok then
    isFinite v && v != Config.nanBits && decide (lo * oneUnits ≤ units v) && decide (units v ≤ hi * oneUnits)
  else v == Config.nanBits

/-- The result registers of MDEC: no value while `MV` = 0 (10_state.md R22); else values within R32.1 and
R32.2. -/
def measurementInv (s : State) : Bool :=
  match s.mv, s.tOk, s.tVal, s.hOk, s.hVal with
  | false, none, none, none, none => true
  | true, some tOk, some tVal, some hOk, some hVal => fieldInv (-45) 130 tOk tVal && fieldInv 0 100 hOk hVal
  | _, _, _, _, _ => false

/-- The result registers of SDEC: no value while `SV` = 0 (10_state.md R26, R27); else a status word
exactly when the CRC matched (R27). -/
def statusInv (s : State) : Bool :=
  match s.sv, s.stOk, s.stWord with
  | false, none, none => true
  | true, some true, some _ => true
  | true, some false, none => true
  | _, _, _ => false

/-- The invariant of every reachable state (10_state.md R32.1, R32.2, with R22, R26, R27). -/
def stateInv (s : State) : Bool := measurementInv s && statusInv s

/-- One event's effect on "the last SDEC since reset had a matching CRC" (10_state.md R32.3). -/
def matchedAfter (before : Bool) (e : HostEvent) : Bool :=
  match e with
  | .reset => false
  | .word w =>
    match decode w with
    | .legal (.sdec b0 b1 b2) => stMatch b0 b1 b2
    | .legal _ => before
    | .illegal _ => before

/-- Whether, after the events, the last SDEC since reset had a matching CRC. -/
def lastSdecMatched (before : Bool) (events : List HostEvent) : Bool := events.foldl matchedAfter before

end Sys2Proof.Safety
end

