-- ==== Sys2Proof/Certificates/Slice0/Obligations.lean ====
section
/-! DEFINITION. The statements for the provers, in the order of the spec's files: encoding, the step,
CRC, measurement decoder, status extractor, control and illegal words, outputs, frames, reset,
invariants, assembler, host context. Where a statement speaks of `input`, that is the model's carrier of
the words and resets the host issues (log entry 1). The SFP has no memory (20_memory.md R50), so no statement and no
frame speaks of memory. -/

open Sys2Proof Sys2Proof.Machine Sys2Proof.Safety

-- ENCODING

/-- Decoding an operation's word gives the operation back, with every operand at every value (30_encoding.md
sections 1 to 3). Every operation is well formed by its type. -/
def Obligations.DecodeInvertsEncode : Prop :=
  ∀ i : Instr, decode (encode i) = .legal i

/-- A legal word has one operation and is that operation's word: no bit of it is free (30_encoding.md
section 3). -/
def Obligations.EncodeInvertsDecode : Prop :=
  ∀ (w : Word) (i : Instr), decode w = .legal i → encode i = w

/-- R84: which words are which operation, by match and mask; the rows are disjoint; every other word is
illegal, and which those are. -/
def Obligations.LegalWordsAreTheTableRows : Prop :=
  (∀ w : Word,
    (decode w = .legal .nop ↔ w &&& 0xFFFFFFFFFFFFFFFF = 0x0000000000000000) ∧
    (decode w = .legal .crcinit ↔ w &&& 0xFFFFFFFFFFFFFFFF = 0x1000000000000000) ∧
    ((∃ d, decode w = .legal (.crcbyte d)) ↔ w &&& 0xFFFFFFFFFFFFFF00 = 0x2000000000000000) ∧
    ((∃ b0 b1 b2 b3 b4 b5, decode w = .legal (.mdec b0 b1 b2 b3 b4 b5)) ↔
      w &&& 0xFFFF000000000000 = 0x3000000000000000) ∧
    ((∃ b0 b1 b2, decode w = .legal (.sdec b0 b1 b2)) ↔
      w &&& 0xFFFFFFFFFF000000 = 0x4000000000000000) ∧
    ((∃ why, decode w = .illegal why) ↔
      (5 ≤ (w.extractLsb 63 60).toNat ∨ w.extractLsb 59 48 ≠ 0 ∨
        (w.extractLsb 63 60 = 0 ∧ w.extractLsb 47 0 ≠ 0) ∨
        (w.extractLsb 63 60 = 1 ∧ w.extractLsb 47 0 ≠ 0) ∨
        (w.extractLsb 63 60 = 2 ∧ w.extractLsb 47 8 ≠ 0) ∨
        (w.extractLsb 63 60 = 4 ∧ w.extractLsb 47 24 ≠ 0)))) ∧
  (∀ w : Word, (∃ i, decode w = .legal i) ↔ ∃ r ∈ opcodeRows, r.accepts w = true) ∧
  (∀ (w : Word) (r₁ r₂ : OpcodeRow), r₁ ∈ opcodeRows → r₂ ∈ opcodeRows →
    r₁.accepts w = true → r₂.accepts w = true → r₁ = r₂)

/-- R83: the operand bits each frame byte is taken from. -/
def Obligations.OperandBytesComeFromTheirBits : Prop :=
  (∀ (w : Word) (d : Byte), decode w = .legal (.crcbyte d) → d = w.extractLsb 7 0) ∧
  (∀ (w : Word) (b0 b1 b2 b3 b4 b5 : Byte), decode w = .legal (.mdec b0 b1 b2 b3 b4 b5) →
    b0 = w.extractLsb 47 40 ∧ b1 = w.extractLsb 39 32 ∧ b2 = w.extractLsb 31 24 ∧
    b3 = w.extractLsb 23 16 ∧ b4 = w.extractLsb 15 8 ∧ b5 = w.extractLsb 7 0) ∧
  (∀ (w : Word) (b0 b1 b2 : Byte), decode w = .legal (.sdec b0 b1 b2) →
    b0 = w.extractLsb 23 16 ∧ b1 = w.extractLsb 15 8 ∧ b2 = w.extractLsb 7 0)

/-- An operand read as one number is the frame read as one big-endian number (20_memory.md section 2). -/
def Obligations.OperandReadsAsTheBigEndianFrame : Prop :=
  (∀ d : Byte, (opndField (encode (.crcbyte d))).toNat = d.toNat) ∧
  (∀ b0 b1 b2 b3 b4 b5 : Byte, (opndField (encode (.mdec b0 b1 b2 b3 b4 b5))).toNat =
    b0.toNat * 256 ^ 5 + b1.toNat * 256 ^ 4 + b2.toNat * 256 ^ 3 + b3.toNat * 256 ^ 2 +
      b4.toNat * 256 + b5.toNat) ∧
  (∀ b0 b1 b2 : Byte, (opndField (encode (.sdec b0 b1 b2))).toNat =
    b0.toNat * 256 ^ 2 + b1.toNat * 256 + b2.toNat)

/-- The words of 30_encoding.md section 4 (R88, which the spec derives) decode as it says, and its lines of
assembly text, as printed, are those words ("`_` inside a literal is a digit separator", 00_scope.md section 5;
the finer points of text are log entry 17). -/
def Obligations.TheSpecsExampleWordsDecode : Prop :=
  decode 0x0000000000000000 = .legal .nop ∧
  decode 0x1000000000000000 = .legal .crcinit ∧
  decode 0x20000000000000BE = .legal (.crcbyte 0xBE) ∧
  decode 0x3000624D7C666693 = .legal (.mdec 0x62 0x4D 0x7C 0x66 0x66 0x93) ∧
  decode 0x400000000020005D = .legal (.sdec 0x20 0x00 0x5D) ∧
  (∃ why, decode 0x5000000000000000 = .illegal why) ∧
  (∃ why, decode 0x20000000000001BE = .illegal why) ∧
  assembleText "nop".toList = some [0x0000000000000000] ∧
  assembleText "crcinit".toList = some [0x1000000000000000] ∧
  assembleText "crcbyte 0xBE".toList = some [0x20000000000000BE] ∧
  assembleText "mdec 0x62, 0x4D, 0x7C, 0x66, 0x66, 0x93".toList = some [0x3000624D7C666693] ∧
  assembleText "sdec 0x20, 0x00, 0x5D".toList = some [0x400000000020005D] ∧
  assembleText ".word 0x5000_0000_0000_0000".toList = some [0x5000000000000000] ∧
  assembleText ".word 0x2000_0000_0000_01BE".toList = some [0x20000000000001BE]

-- THE STEP

/-- When the next event is a word that decodes to an operation, the step is that operation's effect on the
state less the event (00_scope.md section 5, 20_memory.md section 4). That the word comes from `input` is the
model's choice (log entry 1). -/
def Obligations.StepRunsTheDecodedWord : Prop :=
  ∀ (s : State) (w : Word) (rest : List HostEvent) (i : Instr),
    s.input = .word w :: rest → decode w = .legal i →
    step s = exec i { s with input := rest }

/-- With nothing issued, the state stays (the model's choice, log entry 2; 10_state.md section 1: the state
changes only through operation words and reset). -/
def Obligations.StepWithNothingIssuedChangesNothing : Prop :=
  ∀ s : State, s.input = [] → step s = .next s

/-- The SFP never stops accepting operations (60_exceptions.md section 1): every step from every state answers a
next state. That a step takes exactly the first event of `input` (one at a time, in the order issued, 20_memory.md
section 4) rests on the model's carrier of the events (DESIGN CHOICE, log entry 1), and that a step with nothing
issued answers a next state too is the model's inference (DEDUCED, log entry 2). -/
def Obligations.StepAlwaysAnswersANextState : Prop :=
  ∀ s : State, ∃ t, step s = .next t ∧ t.input = s.input.tail

-- CRC-8 GENERATOR

/-- R110 and R111: the shift step, eight of them for `crc_step`, `crc_byte`, and `crc8` as the fold from 0xFF
with no final XOR. -/
def Obligations.CrcFunctionsFollowThePseudocode : Prop :=
  (∀ r : Byte, crcShift r = if r.getLsbD 7 = true then (r <<< 1) ^^^ 0x31 else r <<< 1) ∧
  (∀ r : Byte, crcStep r =
    crcShift (crcShift (crcShift (crcShift (crcShift (crcShift (crcShift (crcShift r)))))))) ∧
  (∀ acc d : Byte, crcByte acc d = crcStep (acc ^^^ d)) ∧
  crc8 [] = 0xFF ∧
  (∀ (bytes : List Byte) (b : Byte), crc8 (bytes ++ [b]) = crcByte (crc8 bytes) b)

/-- R112: CRCINIT's word, its effect on every state, and that it leaves `out_crc` = 0xFF = crc8([]). -/
def Obligations.CrcinitLoadsTheInitialValue : Prop :=
  decode 0x1000000000000000 = .legal .crcinit ∧
  (∀ s : State, exec .crcinit s = .next { s with acc := 0xFF }) ∧
  (∀ s : State, s.acc = 0xFF → exec .crcinit s = .next s) ∧
  (∀ s : State, ∃ t, exec .crcinit s = .next t ∧ outCrc t = 0xFF ∧ outCrc t = crc8 [])

/-- R113: CRCBYTE's words, its effect on every state for every byte, and that a word with op = 0x2 and an
unused operand bit set is illegal and leaves `ACC` alone. What R113 adds as derived is
AccumulatorComputesCrc8. -/
def Obligations.CrcbyteFeedsOneByte : Prop :=
  (∀ w : Word, w &&& 0xFFFFFFFFFFFFFF00 = 0x2000000000000000 →
    decode w = .legal (.crcbyte (w.extractLsb 7 0))) ∧
  (∀ (d : Byte) (s : State), exec (.crcbyte d) s = .next { s with acc := crcByte s.acc d }) ∧
  (∀ (d : Byte) (s : State), s.acc = d → exec (.crcbyte d) s = .next { s with acc := 0x00 }) ∧
  (∀ (s : State) (w : Word) (rest : List HostEvent), s.input = .word w :: rest →
    w.extractLsb 63 60 = 2 → w.extractLsb 47 8 ≠ 0 →
    step s = .next { s with input := rest, err := true })

/-- After CRCINIT and any number of CRCBYTEs `ACC` is the CRC of the bytes, from every state, and nothing
else has changed (derived in the spec: 40_crc.md section 2, the sentence after R113's example). -/
def Obligations.AccumulatorComputesCrc8 : Prop :=
  ∀ (s : State) (bytes : List Byte),
    Host.Core.run Sys2Proof.core (bytes.length + 1)
      ({ s with input := .word (encode .crcinit) :: bytes.map (fun d => .word (encode (.crcbyte d))) } : State)
    = .next ({ s with acc := crc8 bytes, input := [] } : State)

/-- `crc_step` is linear and its table is the one printed (derived in the spec: 40_crc.md section 3). -/
def Obligations.CrcStepIsLinearAndTabulated : Prop :=
  (∀ a b : Byte, crcStep (a ^^^ b) = crcStep a ^^^ crcStep b) ∧ crcStep 0x00 = 0x00 ∧
  (∀ a : Byte, crcTable[a.toNat]? = some (crcStep a)) ∧
  (∀ acc d : Byte, crcTable[(acc ^^^ d).toNat]? = some (crcByte acc d))

/-- A register of any width, truncated only at the end, gives the same CRC (derived in the spec: 40_crc.md
section 3, with 90_conflicts.md C2). -/
def Obligations.TruncatingAtTheEndGivesTheSameCrc : Prop :=
  ∀ bytes : List Byte, wideCrc bytes = (crc8 bytes).toNat

/-- Appending its CRC to a sequence gives 0, and a triplet passes the check exactly when its CRC is 0
(derived in the spec: 40_crc.md section 3). -/
def Obligations.TripletPassesExactlyWhenItsResidueIsZero : Prop :=
  (∀ bytes : List Byte, crc8 (bytes ++ [crc8 bytes]) = 0x00) ∧
  (∀ b0 b1 b2 : Byte, crc8 [b0, b1] = b2 ↔ crc8 [b0, b1, b2] = 0x00)

-- MEASUREMENT DECODER

/-- R52, R53 and R131: the counts and the status word are big-endian. -/
def Obligations.CountsAndStatusWordAreBigEndian : Prop :=
  (∀ b0 b1 : Byte, (rawTemperature b0 b1).toNat = 256 * b0.toNat + b1.toNat ∧
    (rawTemperature b0 b1).extractLsb 15 8 = b0 ∧ (rawTemperature b0 b1).extractLsb 7 0 = b1) ∧
  (∀ b3 b4 : Byte, (rawHumidity b3 b4).toNat = 256 * b3.toNat + b4.toNat ∧
    (rawHumidity b3 b4).extractLsb 15 8 = b3 ∧ (rawHumidity b3 b4).extractLsb 7 0 = b4) ∧
  (∀ b0 b1 : Byte, (statusWord b0 b1).extractLsb 15 8 = b0 ∧ (statusWord b0 b1).extractLsb 7 0 = b1)

/-- R136: MDEC's words and its effect on every state for every frame; a frame of zero bytes fails both
checks. R136's example is a test. -/
def Obligations.MdecDecodesBothFields : Prop :=
  (∀ w : Word, w &&& 0xFFFF000000000000 = 0x3000000000000000 →
    decode w = .legal (.mdec (w.extractLsb 47 40) (w.extractLsb 39 32) (w.extractLsb 31 24)
      (w.extractLsb 23 16) (w.extractLsb 15 8) (w.extractLsb 7 0))) ∧
  (∀ (b0 b1 b2 b3 b4 b5 : Byte) (s : State),
    exec (.mdec b0 b1 b2 b3 b4 b5) s = .next { s with
      mv := true
      tOk := some (decide (crc8 [b0, b1] = b2))
      tVal := some (if crc8 [b0, b1] = b2 then temp (b0 ++ b1) else 0x7FF8000000000000)
      hOk := some (decide (crc8 [b3, b4] = b5))
      hVal := some (if crc8 [b3, b4] = b5 then hum (b3 ++ b4) else 0x7FF8000000000000) }) ∧
  crc8 [0x00, 0x00] = 0x81 ∧
  (∀ s : State, exec (.mdec 0 0 0 0 0 0) s = .next { s with
      mv := true, tOk := some false, tVal := some 0x7FF8000000000000,
      hOk := some false, hVal := some 0x7FF8000000000000 })

/-- R137: each field's result depends on its own three bytes alone, whatever the other bytes and the
states are. -/
def Obligations.MdecFieldsAreIndependent : Prop :=
  (∀ (b0 b1 b2 b3 b4 b5 c3 c4 c5 : Byte) (s s' t t' : State),
    exec (.mdec b0 b1 b2 b3 b4 b5) s = .next t → exec (.mdec b0 b1 b2 c3 c4 c5) s' = .next t' →
    t.tOk = t'.tOk ∧ t.tVal = t'.tVal) ∧
  (∀ (b0 b1 b2 c0 c1 c2 b3 b4 b5 : Byte) (s s' t t' : State),
    exec (.mdec b0 b1 b2 b3 b4 b5) s = .next t → exec (.mdec c0 c1 c2 b3 b4 b5) s' = .next t' →
    t.hOk = t'.hOk ∧ t.hVal = t'.hVal)

/-- A mismatch leaves nothing of the field's bytes behind: any two mismatching triplets give the same state
(60_exceptions.md section 1). -/
def Obligations.ChecksumMismatchRecordsNothingOfTheField : Prop :=
  (∀ (b0 b1 b2 c0 c1 c2 b3 b4 b5 : Byte) (s : State), crc8 [b0, b1] ≠ b2 → crc8 [c0, c1] ≠ c2 →
    exec (.mdec b0 b1 b2 b3 b4 b5) s = exec (.mdec c0 c1 c2 b3 b4 b5) s) ∧
  (∀ (b0 b1 b2 b3 b4 b5 c3 c4 c5 : Byte) (s : State), crc8 [b3, b4] ≠ b5 → crc8 [c3, c4] ≠ c5 →
    exec (.mdec b0 b1 b2 b3 b4 b5) s = exec (.mdec b0 b1 b2 c3 c4 c5) s)

/-- What `RNE64` is (00_scope.md section 5): no finite binary64 is nearer to the exact rational num / den than
its result, and another as near means that the result's last fraction bit is 0. Values are compared in units of
2^-1074, of which every finite binary64 is a whole number. -/
def Obligations.RoundingIsToNearestTiesToEven : Prop :=
  ∀ (num : Int) (den : Nat), 0 < den → isFinite (rne64 num den) = true →
    ∀ y : F64, isFinite y = true →
      |num * oneUnits - units (rne64 num den) * den| ≤ |num * oneUnits - units y * den| ∧
      (|num * oneUnits - units (rne64 num den) * den| = |num * oneUnits - units y * den| →
        units y ≠ units (rne64 num den) → (rne64 num den).getLsbD 0 = false)

/-- The three operations on finite operands round the exact result once (00_scope.md section 5), where it is
not 0: of an exact result of 0 only the sign is left to give. Past the largest finite value both sides are the
infinity of log entry 8. -/
def Obligations.FloatOperationsRoundTheExactResult : Prop :=
  ∀ a b : F64, isFinite a = true → isFinite b = true →
    (units a * units b ≠ 0 → fmul a b = rne64 (units a * units b) (oneUnits * oneUnits)) ∧
    (units a ≠ 0 → 0 < units b → fdiv a b = rne64 (units a) (units b).natAbs) ∧
    (units a ≠ 0 → units b < 0 → fdiv a b = rne64 (-(units a)) (units b).natAbs) ∧
    (units a - units b ≠ 0 → fsub a b = rne64 (units a - units b) oneUnits)

/-- R133: the temperature formula, left to right; its product is exact; and its value as the twice rounded
formula. -/
def Obligations.TemperatureIsTheTwiceRoundedFormula : Prop :=
  ∀ raw : Half,
    temp raw = fsub (fdiv (fmul (f64 175) (f64 raw.toNat)) (f64 65535)) (f64 45) ∧
    175 * raw.toNat ≤ 11468625 ∧
    units (fmul (f64 175) (f64 raw.toNat)) = 175 * raw.toNat * oneUnits ∧
    temp raw = rne64 (units (rne64 (175 * raw.toNat) 65535) - 45 * oneUnits) oneUnits

/-- R134: the humidity formula; its product is exact; and its value as the exact quotient rounded once. -/
def Obligations.HumidityIsTheOnceRoundedQuotient : Prop :=
  ∀ raw : Half,
    hum raw = fdiv (fmul (f64 100) (f64 raw.toNat)) (f64 65535) ∧
    100 * raw.toNat ≤ 6553500 ∧
    units (fmul (f64 100) (f64 raw.toNat)) = 100 * raw.toNat * oneUnits ∧
    hum raw = rne64 (100 * raw.toNat) 65535

/-- The exact values at the ends of the range (derived in the spec: 41_measurement_decoder.md section 4). -/
def Obligations.TransferFunctionsAtTheEndsOfTheRange : Prop :=
  temp 0x0000 = 0xC046800000000000 ∧ temp 0xFFFF = 0x4060400000000000 ∧
  hum 0x0000 = 0x0000000000000000 ∧ hum 0xFFFF = 0x4059000000000000

/-- Both functions are strictly increasing, every result is finite and none is -0.0, and the temperature
is never 0.0 (derived in the spec: 41_measurement_decoder.md section 4). -/
def Obligations.TransferFunctionsStrictlyIncrease : Prop :=
  (∀ a b : Half, a.toNat < b.toNat → units (temp a) < units (temp b) ∧ units (hum a) < units (hum b)) ∧
  (∀ a : Half, isFinite (temp a) = true ∧ isFinite (hum a) = true ∧
    units (temp a) ≠ 0 ∧ hum a ≠ 0x8000000000000000)

/-- The two readings of the temperature formula differ at raw 370 as the spec says, and the model takes the
first (derived in the spec: 41_measurement_decoder.md section 4, and 92_eei_decisions.md D10). -/
def Obligations.TheTwoTemperatureReadingsDifferAtRaw370 : Prop :=
  tempUnder .perOp 370 = 0xC046018881888188 ∧ tempUnder .single 370 = 0xC046018881888189 ∧
  ∀ raw : Half, temp raw = tempUnder .perOp raw

-- STATUS FIELD EXTRACTOR

/-- R161: SDEC's words and its effect on every state for every frame: on a mismatch `ST_WORD` holds no
value. R161's example is a test. -/
def Obligations.SdecKeepsTheWordOnlyWhenItsCrcMatches : Prop :=
  (∀ w : Word, w &&& 0xFFFFFFFFFF000000 = 0x4000000000000000 →
    decode w = .legal (.sdec (w.extractLsb 23 16) (w.extractLsb 15 8) (w.extractLsb 7 0))) ∧
  (∀ (b0 b1 b2 : Byte) (s : State),
    exec (.sdec b0 b1 b2) s = .next { s with
      sv := true
      stOk := some (decide (crc8 [b0, b1] = b2))
      stWord := if crc8 [b0, b1] = b2 then some (b0 ++ b1) else none }) ∧
  (∀ (b2 : Byte) (s : State), crc8 [0x00, 0x00] = b2 → ∃ t, exec (.sdec 0x00 0x00 b2) s = .next t ∧
    stState t = .present ∧ ∀ p, outPred p t = .isFalse) ∧
  (∀ (b2 : Byte) (s : State), crc8 [0xFF, 0xFF] = b2 → ∃ t, exec (.sdec 0xFF 0xFF b2) s = .next t ∧
    stState t = .present ∧ t.stWord = some 0xFFFF ∧ ∀ p, outPred p t = .isTrue)

/-- R162 and R164: after a mismatching SDEC the status is ABSENT, no output shows any bit of the frame (any
two such frames leave the same state), and whenever the status is not PRESENT, before the first SDEC too,
`out_status` is none and every predicate is UNKNOWN, which at the pins is known = 0. -/
def Obligations.AMismatchingStatusShowsNothing : Prop :=
  (∀ (b0 b1 b2 : Byte) (s : State), crc8 [b0, b1] ≠ b2 →
    ∃ t, exec (.sdec b0 b1 b2) s = .next t ∧ stState t = .absent ∧ outStatus t = none ∧
      ∀ p, outPred p t = .unknown) ∧
  (∀ (b0 b1 b2 c0 c1 c2 : Byte) (s : State), crc8 [b0, b1] ≠ b2 → crc8 [c0, c1] ≠ c2 →
    exec (.sdec b0 b1 b2) s = exec (.sdec c0 c1 c2) s) ∧
  (∀ s : State, stState s ≠ .present →
    outStatus s = none ∧ ∀ p, outPred p s = .unknown ∧ pinPredKnown p s = false)

/-- R163: the seven predicates, each the mask test of its one bit of the status word while it is PRESENT, and
UNKNOWN otherwise. -/
def Obligations.PredicatesAreMaskTests : Prop :=
  (∀ (s : State) (w : Half), stState s = .present → s.stWord = some w →
    (outPred .dataCrcError s = if w &&& 0x0001 ≠ 0 then .isTrue else .isFalse) ∧
    (outPred .commandError s = if w &&& 0x0002 ≠ 0 then .isTrue else .isFalse) ∧
    (outPred .resetDetected s = if w &&& 0x0010 ≠ 0 then .isTrue else .isFalse) ∧
    (outPred .temperatureAlert s = if w &&& 0x0400 ≠ 0 then .isTrue else .isFalse) ∧
    (outPred .humidityAlert s = if w &&& 0x0800 ≠ 0 then .isTrue else .isFalse) ∧
    (outPred .heaterActive s = if w &&& 0x2000 ≠ 0 then .isTrue else .isFalse) ∧
    (outPred .alertPending s = if w &&& 0x8000 ≠ 0 then .isTrue else .isFalse)) ∧
  (∀ (s : State) (p : Predicate), stState s ≠ .present → outPred p s = .unknown)

-- CONTROL AND ILLEGAL WORDS

/-- R190: NOP's word, that it changes no state, and that op = 0x0 with any other bit set is illegal. -/
def Obligations.NopChangesNothing : Prop :=
  decode 0x0000000000000000 = .legal .nop ∧
  (∀ s : State, exec .nop s = .next s) ∧
  (∀ w : Word, w.extractLsb 63 60 = 0 → w ≠ 0 → ∃ why, decode w = .illegal why)

/-- R191: an illegal word, of each of its kinds, sets `ERR` and changes nothing else, from every state; a word
with op = 0x3 and rsv = 0 is never illegal; legal words execute the same after one; and a state with `ERR` = 1
is judged faulted. -/
def Obligations.AnIllegalWordSetsErrAndNothingElse : Prop :=
  (∀ (s : State) (w : Word) (rest : List HostEvent), s.input = .word w :: rest →
    (5 ≤ (w.extractLsb 63 60).toNat ∨ w.extractLsb 59 48 ≠ 0 ∨
      ((w.extractLsb 63 60 = 0 ∨ w.extractLsb 63 60 = 1) ∧ w.extractLsb 47 0 ≠ 0) ∨
      (w.extractLsb 63 60 = 2 ∧ w.extractLsb 47 8 ≠ 0) ∨
      (w.extractLsb 63 60 = 4 ∧ w.extractLsb 47 24 ≠ 0)) →
    step s = .next { s with input := rest, err := true } ∧
    (s.err = true → step s = .next { s with input := rest })) ∧
  (∀ w : Word, w.extractLsb 63 60 = 3 → w.extractLsb 59 48 = 0 →
    ∃ b0 b1 b2 b3 b4 b5, decode w = .legal (.mdec b0 b1 b2 b3 b4 b5)) ∧
  (∀ (i : Instr) (s t : State), exec i s = .next t →
    exec i { s with err := true } = .next { t with err := true }) ∧
  step { State.reset with input := [.word 0x5000000000000000] } = .next { State.reset with err := true } ∧
  (∀ s : State, s.err = true → judge s = .fault .illegalWordAccepted) ∧
  (∀ s : State, s.err = false → judge s = .next s)

/-- R28: `ERR` is 0 after reset, every illegal word sets it, nothing else does, nothing but reset clears it,
and no legal operation reads it or changes it. -/
def Obligations.ErrIsStickyAndNoOperationReadsIt : Prop :=
  State.reset.err = false ∧
  (∀ (s : State) (w : Word) (rest : List HostEvent) (why : IllegalReason),
    s.input = .word w :: rest → decode w = .illegal why → ∃ t, step s = .next t ∧ t.err = true) ∧
  (∀ s t : State, step s = .next t → s.err = false → t.err = true →
    ∃ w rest why, s.input = .word w :: rest ∧ decode w = .illegal why) ∧
  (∀ s t : State, step s = .next t → s.err = true → t.err = false → ∃ rest, s.input = .reset :: rest) ∧
  (∀ (i : Instr) (s t : State) (e : Bool), exec i s = .next t →
    t.err = s.err ∧ exec i { s with err := e } = .next { t with err := e })

-- OUTPUTS

/-- In every state that meets the invariant: `out_meas` and the measurement's data lines show values exactly
when `meas_valid` is 1, and then the registers'; `st_word` and `out_status` exactly when the status is PRESENT;
a predicate line exactly when its known line is 1, which it is exactly when the status is PRESENT, and then the line
is 1 for the output TRUE and 0 for FALSE; and 11 is never driven on `st_state` (10_state.md section 2). -/
def Obligations.DataLinesShowValuesExactlyWhenQualified : Prop :=
  ∀ s : State, stateInv s = true →
    ((outMeas s).isSome = s.mv ∧ (pinTOk s).isSome = pinMeasValid s ∧ (pinTVal s).isSome = pinMeasValid s ∧
      (pinHOk s).isSome = pinMeasValid s ∧ (pinHVal s).isSome = pinMeasValid s) ∧
    (s.mv = true → ∃ tOk tVal hOk hVal, outMeas s = some ⟨tOk, tVal, hOk, hVal⟩ ∧
      pinTOk s = some tOk ∧ pinTVal s = some tVal ∧ pinHOk s = some hOk ∧ pinHVal s = some hVal ∧
      s.tOk = some tOk ∧ s.tVal = some tVal ∧ s.hOk = some hOk ∧ s.hVal = some hVal) ∧
    ((outStatus s).isSome = true ↔ stState s = .present) ∧ pinStWord s = outStatus s ∧
    (∀ p, (pinPred p s).isSome = pinPredKnown p s) ∧
    (∀ p, (pinPredKnown p s = true ↔ stState s = .present) ∧
      (pinPred p s = some true ↔ outPred p s = .isTrue) ∧ (pinPred p s = some false ↔ outPred p s = .isFalse)) ∧
    pinStState s ≠ 0b11

/-- What the hardware's data lines carry: while the qualifying line is inactive, any value at all, in every state;
while it is active, in every state that meets the invariant, the register's or the predicate's value, whatever the
free value is (10_state.md section 2; 93_implementation_defined.md section 1, U3 and U5). The free value is an
argument that the statement quantifies over (log entry 13). -/
def Obligations.DataLinesCarryAnyValueWhileUnqualified : Prop :=
  (∀ s : State, pinMeasValid s = false →
    (∀ v, levelTOk v s = v) ∧ (∀ v, levelTVal v s = v) ∧ (∀ v, levelHOk v s = v) ∧ (∀ v, levelHVal v s = v)) ∧
  (∀ s : State, stState s ≠ .present → ∀ v, levelStWord v s = v) ∧
  (∀ (s : State) (p : Predicate), pinPredKnown p s = false → ∀ v, levelPred p v s = v) ∧
  (∀ s : State, stateInv s = true →
    (pinMeasValid s = true →
      (∀ v, some (levelTOk v s) = s.tOk) ∧ (∀ v, some (levelTVal v s) = s.tVal) ∧
      (∀ v, some (levelHOk v s) = s.hOk) ∧ (∀ v, some (levelHVal v s) = s.hVal)) ∧
    (stState s = .present → ∀ v, some (levelStWord v s) = s.stWord) ∧
    (∀ p, pinPredKnown p s = true → ∀ v, (levelPred p v s = true ↔ outPred p s = .isTrue)))

/-- In every state: `out_crc` and `out_err` are the registers, here and at the pins; `st_state` is EMPTY (00)
while `SV` is 0, ABSENT (01) while `SV` is 1 and `ST_OK` 0, PRESENT (10) while both are 1, and then `out_status` is
`ST_WORD` (10_state.md section 2). -/
def Obligations.OutputsFollowTheirRegisters : Prop :=
  ∀ s : State,
    outCrc s = s.acc ∧ pinCrcOut s = s.acc ∧ outErr s = s.err ∧ pinErr s = s.err ∧ pinMeasValid s = s.mv ∧
    (s.sv = false → stState s = .empty ∧ pinStState s = 0b00) ∧
    (s.sv = true → s.stOk = some false → stState s = .absent ∧ pinStState s = 0b01) ∧
    (s.sv = true → s.stOk = some true →
      stState s = .present ∧ pinStState s = 0b10 ∧ outStatus s = s.stWord)

-- FRAMES

/-- What each operation leaves unchanged: NOP everything; CRCINIT and CRCBYTE all but `ACC`; MDEC all but
`MV`, `T_OK`, `T_VAL`, `H_OK`, `H_VAL`; SDEC all but `SV`, `ST_OK`, `ST_WORD` (10_state.md section 1). -/
def Obligations.FrameOfEachOperation : Prop :=
  (∀ s t : State, exec .nop s = .next t → t = s) ∧
  (∀ s t : State, exec .crcinit s = .next t → t = { s with acc := t.acc }) ∧
  (∀ (d : Byte) (s t : State), exec (.crcbyte d) s = .next t → t = { s with acc := t.acc }) ∧
  (∀ (b0 b1 b2 b3 b4 b5 : Byte) (s t : State), exec (.mdec b0 b1 b2 b3 b4 b5) s = .next t →
    t = { s with mv := t.mv, tOk := t.tOk, tVal := t.tVal, hOk := t.hOk, hVal := t.hVal }) ∧
  (∀ (b0 b1 b2 : Byte) (s t : State), exec (.sdec b0 b1 b2) s = .next t →
    t = { s with sv := t.sv, stOk := t.stOk, stWord := t.stWord })

/-- MDEC and SDEC neither read nor write `ACC`: changing it before changes it alone after (10_state.md
section 1, 92_eei_decisions.md D7). -/
def Obligations.DecodesNeitherReadNorWriteTheAccumulator : Prop :=
  (∀ (b0 b1 b2 b3 b4 b5 : Byte) (s t : State) (a : Byte), exec (.mdec b0 b1 b2 b3 b4 b5) s = .next t →
    t.acc = s.acc ∧ exec (.mdec b0 b1 b2 b3 b4 b5) { s with acc := a } = .next { t with acc := a }) ∧
  (∀ (b0 b1 b2 : Byte) (s t : State) (a : Byte), exec (.sdec b0 b1 b2) s = .next t →
    t.acc = s.acc ∧ exec (.sdec b0 b1 b2) { s with acc := a } = .next { t with acc := a })

/-- The second of two CRCINITs, MDECs or SDECs alike changes nothing (derived in the spec: 20_memory.md
section 3). -/
def Obligations.RepeatingAnIdempotentOperationChangesNothing : Prop :=
  (∀ s t : State, exec .crcinit s = .next t → exec .crcinit t = .next t) ∧
  (∀ (b0 b1 b2 b3 b4 b5 : Byte) (s t : State), exec (.mdec b0 b1 b2 b3 b4 b5) s = .next t →
    exec (.mdec b0 b1 b2 b3 b4 b5) t = .next t) ∧
  (∀ (b0 b1 b2 : Byte) (s t : State), exec (.sdec b0 b1 b2) s = .next t →
    exec (.sdec b0 b1 b2) t = .next t)

-- RESET

/-- R230: the state after reset, register by register, as its table gives it. That the host has issued nothing
yet is the model's choice (log entry 1) and no part of this statement. -/
def Obligations.ResetLeavesTheStatedRegisters : Prop :=
  State.reset.acc = 0xFF ∧ State.reset.mv = false ∧ State.reset.tOk = none ∧ State.reset.hOk = none ∧
  State.reset.tVal = none ∧ State.reset.hVal = none ∧ State.reset.sv = false ∧ State.reset.stOk = none ∧
  State.reset.stWord = none ∧ State.reset.err = false

/-- What the outputs show after reset (70_reset_and_hazards.md section 1, where the spec marks the sentence as its
own derivation from 10_state.md R30). -/
def Obligations.OutputsAfterReset : Prop :=
  outCrc State.reset = 0xFF ∧ outMeas State.reset = none ∧ stState State.reset = .empty ∧
  outStatus State.reset = none ∧ (∀ p, outPred p State.reset = .unknown) ∧ outErr State.reset = false

/-- Reset (70_reset_and_hazards.md section 1): a reset event applies R230 in full from every state; a word issued across a reset leaves the same
state whether it completed before or was lost; and reset is the only way to clear `ERR`, `MV` or `SV`.
That the host's later events stay in `input`, and a word across a reset as two schedules, are the model's reading
(log entry 11). -/
def Obligations.ResetIsTheOnlyWayBack : Prop :=
  (∀ (s : State) (rest : List HostEvent), s.input = .reset :: rest →
    step s = .next { State.reset with input := rest }) ∧
  (∀ (s t : State) (w : Word) (rest : List HostEvent), s.input = .word w :: .reset :: rest →
    step s = .next t →
    step t = .next { State.reset with input := rest } ∧
    step { s with input := .reset :: rest } = .next { State.reset with input := rest }) ∧
  (∀ s t : State, step s = .next t →
    (s.err = true ∧ t.err = false) ∨ (s.mv = true ∧ t.mv = false) ∨ (s.sv = true ∧ t.sv = false) →
    ∃ rest, s.input = .reset :: rest) ∧
  Sys2Proof.core.reset = State.reset

/-- R22 and R25: `MV` and `SV` are 0 after reset, every MDEC sets `MV` and every SDEC sets `SV`, nothing but
reset clears them, and while `MV` is 0 `out_meas` is none and, in every state that meets the invariant, MDEC's
result registers hold no value and a direct read of one faults. -/
def Obligations.ValidBitsAreSetByTheirDecodes : Prop :=
  State.reset.mv = false ∧ State.reset.sv = false ∧
  (∀ (b0 b1 b2 b3 b4 b5 : Byte) (s : State),
    ∃ t, exec (.mdec b0 b1 b2 b3 b4 b5) s = .next t ∧ t.mv = true ∧ t.sv = s.sv) ∧
  (∀ (b0 b1 b2 : Byte) (s : State), ∃ t, exec (.sdec b0 b1 b2) s = .next t ∧ t.sv = true ∧ t.mv = s.mv) ∧
  (∀ s t : State, step s = .next t → (s.mv = true ∧ t.mv = false) ∨ (s.sv = true ∧ t.sv = false) →
    ∃ rest, s.input = .reset :: rest) ∧
  (∀ s : State, s.mv = false → outMeas s = none) ∧
  (∀ s : State, stateInv s = true → s.mv = false →
    s.tOk = none ∧ s.hOk = none ∧ s.tVal = none ∧ s.hVal = none ∧
    readResult .tOk s.tOk = .error (.unspecifiedRead .tOk) ∧
    readResult .hOk s.hOk = .error (.unspecifiedRead .hOk) ∧
    readResult .tVal s.tVal = .error (.unspecifiedRead .tVal) ∧
    readResult .hVal s.hVal = .error (.unspecifiedRead .hVal))

/-- In every state that meets the invariant: while `SV` is 0, `ST_OK` and `ST_WORD` hold no value and a direct
read of either faults; while it is 1, `ST_OK` reads; `ST_WORD` reads the word of `out_status` while the status is
PRESENT and faults while it is ABSENT; and what `out_meas` shows is what the four registers read. From every state, a
mismatching SDEC leaves `ST_OK` reading 0 and `ST_WORD` without a value, so that its direct read faults (10_state.md
sections 1 and 2: R26, R27, R34; 93_implementation_defined.md section 1: U3, U4). -/
def Obligations.DirectReadsFaultExactlyWithoutAValue : Prop :=
  (∀ s : State, stateInv s = true →
    (s.sv = false → s.stOk = none ∧ s.stWord = none ∧
      readResult .stOk s.stOk = .error (.unspecifiedRead .stOk) ∧
      readResult .stWord s.stWord = .error (.unspecifiedRead .stWord)) ∧
    (s.sv = true → ∃ ok, s.stOk = some ok ∧ readResult .stOk s.stOk = .ok ok) ∧
    (∀ w, outStatus s = some w → readResult .stWord s.stWord = .ok w) ∧
    (stState s = .absent → s.stWord = none ∧ readResult .stWord s.stWord = .error (.unspecifiedRead .stWord)) ∧
    (∀ m, outMeas s = some m →
      readResult .tOk s.tOk = .ok m.tOk ∧ readResult .tVal s.tVal = .ok m.tVal ∧
      readResult .hOk s.hOk = .ok m.hOk ∧ readResult .hVal s.hVal = .ok m.hVal)) ∧
  (∀ (b0 b1 b2 : Byte) (s : State), crc8 [b0, b1] ≠ b2 →
    ∃ t, exec (.sdec b0 b1 b2) s = .next t ∧ readResult .stOk t.stOk = .ok false ∧ t.stWord = none ∧
      readResult .stWord t.stWord = .error (.unspecifiedRead .stWord))

-- INVARIANTS

/-- The invariant holds after reset (10_state.md section 2, R32 as derived there). -/
def Obligations.TheInvariantHoldsAfterReset : Prop :=
  stateInv State.reset = true

/-- Every step from every state keeps the invariant: a measurement's flag is 0 exactly when its value is the
sentinel, a valid temperature lies in -45.0 to 130.0 and a valid humidity in 0.0 to 100.0, result registers hold no
value before their first decode, and a status word is held exactly when its CRC matched (derived in the spec:
10_state.md section 2, R32.1 and R32.2). -/
def Obligations.EveryStepKeepsTheInvariant : Prop :=
  ∀ s t : State, stateInv s = true → step s = .next t → stateInv t = true

/-- `fieldInv` says what 10_state.md section 2 (R32.1) says: under it the flag is 0 exactly when the value is the
sentinel. -/
def Obligations.AFieldIsTheSentinelExactlyWhenItsFlagIsClear : Prop :=
  ∀ s : State, stateInv s = true → ∀ m : MeasOut, outMeas s = some m →
    (m.tOk = false ↔ m.tVal = 0x7FF8000000000000) ∧ (m.hOk = false ↔ m.hVal = 0x7FF8000000000000) ∧
    (m.tOk = true → -45 * oneUnits ≤ units m.tVal ∧ units m.tVal ≤ 130 * oneUnits) ∧
    (m.hOk = true → 0 ≤ units m.hVal ∧ units m.hVal ≤ 100 * oneUnits)

/-- After any events whatever, from any state, the status is PRESENT exactly when the last SDEC since reset had
a matching CRC, a state's own status standing for what came before the events (derived in the spec:
10_state.md section 2, R32.3). -/
def Obligations.PresentTracksTheLastStatusFrame : Prop :=
  ∀ (s : State) (events : List HostEvent),
    ∃ t : State, Host.Core.run Sys2Proof.core events.length ({ s with input := events } : State) = .next t ∧
      t.input = [] ∧
      (stState t = .present ↔ lastSdecMatched (decide (stState s = .present)) events = true)

-- ASSEMBLER

/-- R87: what the pseudo-instructions expand to, and that `mframe` and `sframe` always build frames whose CRCs
match. -/
def Obligations.AssembledFramesAlwaysMatch : Prop :=
  (∀ bytes : List Nat, (∀ b ∈ bytes, b < 256) → assemble (.crcOf bytes) =
    some (encode .crcinit :: bytes.map (fun b => encode (.crcbyte (BitVec.ofNat 8 b))))) ∧
  (∀ t h : Half, ∃ i, assemble (.mframe t.toNat h.toNat) = some [encode i] ∧
    i = .mdec (t.extractLsb 15 8) (t.extractLsb 7 0) (crc8 [t.extractLsb 15 8, t.extractLsb 7 0])
      (h.extractLsb 15 8) (h.extractLsb 7 0) (crc8 [h.extractLsb 15 8, h.extractLsb 7 0]) ∧
    ∀ s : State, ∃ u, exec i s = .next u ∧ outMeas u = some ⟨true, temp t, true, hum h⟩) ∧
  (∀ w : Half, ∃ i, assemble (.sframe w.toNat) = some [encode i] ∧
    i = .sdec (w.extractLsb 15 8) (w.extractLsb 7 0) (crc8 [w.extractLsb 15 8, w.extractLsb 7 0]) ∧
    ∀ s : State, ∃ u, exec i s = .next u ∧ outStatus u = some w)

/-- Only `.word` spells an illegal word: every word of every other line is legal, and a line assembles exactly
when its operands are in range (30_encoding.md section 4). -/
def Obligations.OnlyRawWordsSpellIllegalWords : Prop :=
  (∀ line : AsmLine, (assemble line).isSome = line.wellFormed) ∧
  (∀ (line : AsmLine) (words : List Word), assemble line = some words → (∀ v, line ≠ .rawWord v) →
    ∀ w ∈ words, ∃ i, decode w = .legal i) ∧
  (∀ w : Word, assemble (.rawWord w.toNat) = some [w])

-- HOST CONTEXT

/-- The host's readings of 70_reset_and_hazards.md section 4, a measurement and a status read ("the same with
ReadStatus, a 3-byte read and SDEC"), each after step 1, keep every obligation of the host, whatever bytes the bus
returns, and give the SFP exactly the MDEC or SDEC of those bytes; a reading whose write or whose read fails keeps
them too and gives it nothing, with whatever command (20_memory.md section 5). That a write can fail as well as a
read, and that neither leaves anything owed, is the model's choice (DESIGN CHOICE, log entry 23), as are the register
byte of the status read (log entry 15) and the shortest waits of steps 1 and 3 (log entry 27). -/
def Obligations.AHostReadingIssuesItsFrameOnce : Prop :=
  (∀ address : BitVec 7, sendCommand address (.measureHighRep false) true = .write address 0x24 0x00 true) ∧
  (∀ (address : BitVec 7) (b0 b1 b2 b3 b4 b5 : Byte),
    ((HostPhase.start address).allowsAll
      (firstReading address true (some [b0, b1, b2, b3, b4, b5]))).isSome = true ∧
    sfpEvents (firstReading address true (some [b0, b1, b2, b3, b4, b5])) =
      [.word (encode (.mdec b0 b1 b2 b3 b4 b5))]) ∧
  (∀ (address : BitVec 7) (registerByte b0 b1 b2 : Byte),
    ((HostPhase.start address).allowsAll
      (powerOn ++ statusReading address registerByte true (some [b0, b1, b2]))).isSome = true ∧
    sfpEvents (powerOn ++ statusReading address registerByte true (some [b0, b1, b2])) =
      [.word (encode (.sdec b0 b1 b2))]) ∧
  (∀ (address : BitVec 7) (registerByte : Byte) (delivered : Bool) (result : Option (List Byte)),
    delivered = false ∨ result = none →
    ((HostPhase.start address).allowsAll (firstReading address delivered result)).isSome = true ∧
    ((HostPhase.start address).allowsAll
      (powerOn ++ statusReading address registerByte delivered result)).isSome = true ∧
    ∀ c : SensorCommand, sfpEvents (reading c address registerByte delivered result) = [])

/-- The waits that the host owes, each as the bound that decides (70_reset_and_hazards.md sections 2 and 4): a
command after construction is kept exactly from 50 ms on, whichever command; a measurement's read after its command
exactly from 15 ms on, whichever measurement command and whatever the read returns; a command after SoftReset exactly
from 10 ms on, whichever command; and, from every phase of the host, a command sent after one whose response is not
read yet breaks the obligations, however long the wait between them. Each sequence is on the host's own address and
its waits are single ones, but for the settling wait, which comes first; points of the sequence that the spec leaves
open are log entries 16 and 23 to 26. -/
def Obligations.EarlyReadsAndCommandsBreakTheHostsObligations : Prop :=
  (∀ (address : BitVec 7) (settle : Nat) (c : SensorCommand) (delivered : Bool),
    ((HostPhase.start address).allowsAll
      [.construct, .wait settle, sendCommand address c delivered]).isSome = decide (50 ≤ settle)) ∧
  (∀ (address : BitVec 7) (settle convert : Nat) (c : SensorCommand) (result : Option (List Byte)),
    c.responseLength = 6 →
    ((HostPhase.start address).allowsAll
      [.construct, .wait settle, sendCommand address c true, .wait convert,
        .readBlock address 0 6 result]).isSome = (decide (50 ≤ settle) && decide (15 ≤ convert))) ∧
  (∀ (address : BitVec 7) (settle ms : Nat) (c : SensorCommand) (delivered : Bool),
    ((HostPhase.start address).allowsAll
      [.construct, .wait settle, sendCommand address .softReset true, .wait ms,
        sendCommand address c delivered]).isSome = (decide (50 ≤ settle) && decide (10 ≤ ms))) ∧
  (∀ (p : HostPhase) (c later : SensorCommand) (ms : Nat) (delivered : Bool), c.responseLength ≠ 0 →
    p.allowsAll [sendCommand p.address c true, .wait ms, sendCommand p.address later delivered] = none)
end

