-- ==== Sys2Proof/Laws/Binary64.lean ====
section
/-! SUPPORT. Rounding: what rounding to a whole number promises, that it and the rounding to binary64
grow with the rounded value, and what the fields of a packed binary64 read back as. -/

namespace Sys2Proof.Machine

/-- The rounded number is within half of the fraction, and exactly half off only when it is even. -/
theorem roundHalfEven_near (n d : Nat) (hd : 0 < d) :
    2 * n ≤ (2 * roundHalfEven n d + 1) * d ∧ 2 * roundHalfEven n d * d ≤ 2 * n + d ∧
    (2 * n = (2 * roundHalfEven n d + 1) * d → roundHalfEven n d % 2 = 0) ∧
    (2 * roundHalfEven n d * d = 2 * n + d → roundHalfEven n d % 2 = 0) := by
  have hr : n % d < d := Nat.mod_lt n hd
  have hn : n = d * (n / d) + n % d := (Nat.div_add_mod n d).symm
  unfold roundHalfEven
  generalize n / d = q at *
  generalize n % d = r at *
  subst hn
  have e1 : (2 * q + 1) * d = 2 * (d * q) + d := by ring
  have e2 : 2 * q * d = 2 * (d * q) := by ring
  have e3 : (2 * (q + 1) + 1) * d = 2 * (d * q) + 3 * d := by ring
  have e4 : 2 * (q + 1) * d = 2 * (d * q) + 2 * d := by ring
  dsimp only
  split_ifs <;> simp only [e1, e2, e3, e4] <;> omega

/-- A whole number rounds to itself. -/
theorem roundHalfEven_mul (m d : Nat) (hd : 0 < d) : roundHalfEven (m * d) d = m := by
  simp [roundHalfEven, hd]

/-- A larger fraction does not round lower. -/
theorem roundHalfEven_mono {n₁ d₁ n₂ d₂ : Nat} (h₁ : 0 < d₁) (h₂ : 0 < d₂) (h : n₁ * d₂ ≤ n₂ * d₁) :
    roundHalfEven n₁ d₁ ≤ roundHalfEven n₂ d₂ := by
  obtain ⟨-, b₁, -, t₁⟩ := roundHalfEven_near n₁ d₁ h₁
  obtain ⟨a₂, -, t₂, -⟩ := roundHalfEven_near n₂ d₂ h₂
  generalize roundHalfEven n₁ d₁ = m₁ at *
  generalize roundHalfEven n₂ d₂ = m₂ at *
  by_contra hlt
  push Not at hlt
  have c₁ := Nat.mul_le_mul_right d₂ b₁
  have c₂ := Nat.mul_le_mul_right d₁ a₂
  have key : 2 * m₁ * (d₁ * d₂) ≤ (2 * m₂ + 2) * (d₁ * d₂) := by nlinarith
  have hpos : 0 < d₁ * d₂ := Nat.mul_pos h₁ h₂
  have hle : 2 * m₁ ≤ 2 * m₂ + 2 := Nat.le_of_mul_le_mul_right key hpos
  have hm : m₁ = m₂ + 1 := by omega
  subst hm
  have tie₁ : 2 * (m₂ + 1) * d₁ = 2 * n₁ + d₁ := by
    apply Nat.le_antisymm b₁
    apply Nat.le_of_mul_le_mul_right _ h₂
    nlinarith
  have tie₂ : 2 * n₂ = (2 * m₂ + 1) * d₂ := by
    apply Nat.le_antisymm a₂
    apply Nat.le_of_mul_le_mul_right _ h₁
    nlinarith
  have := t₁ tie₁
  have := t₂ tie₂
  omega

theorem oneUnits_eq : oneUnits = 2 ^ 1074 := by
  unfold oneUnits
  generalize 1074 = k
  exact Nat.one_shiftLeft k

theorem oneUnits_pos : 0 < oneUnits := by
  rw [oneUnits_eq]
  generalize 1074 = k
  exact Nat.two_pow_pos k

theorem two_pow_dvd_oneUnits {k : Nat} (h : k ≤ 1074) : 2 ^ k ∣ oneUnits := by
  unfold oneUnits
  generalize 1074 = j at *
  rw [Nat.one_shiftLeft]
  exact Nat.pow_dvd_pow 2 h

/-- The logarithm of a number with `k` of its halvings done first. -/
theorem log2_div_two_pow {q k : Nat} (h : q / 2 ^ k ≠ 0) : Nat.log2 q = k + Nat.log2 (q / 2 ^ k) := by
  have hq : q ≠ 0 := by
    intro h0
    rw [h0, Nat.zero_div] at h
    exact h rfl
  obtain ⟨lo, hi⟩ := (Nat.log2_eq_iff h).mp rfl
  rw [Nat.log2_eq_iff hq]
  generalize Nat.log2 (q / 2 ^ k) = e at *
  constructor
  · rw [Nat.add_comm, pow_add]
    exact (Nat.le_div_iff_mul_le (by positivity)).mp lo
  · rw [show k + e + 1 = e + 1 + k by omega, pow_add]
    exact (Nat.div_lt_iff_lt_mul (by positivity)).mp hi

/-- The fast logarithm is the logarithm. -/
theorem unitsLog2_eq (q : Nat) : unitsLog2 q = Nat.log2 q := by
  unfold unitsLog2
  generalize 1024 = k
  split
  · rfl
  · rename_i h
    rw [Nat.shiftRight_eq_div_pow] at *
    exact (log2_div_two_pow h).symm

/-- The shift, by the logarithm. -/
theorem roundShift_eq (n d : Nat) : roundShift n d = Nat.log2 (n / d) - 52 := by
  rw [roundShift, unitsLog2_eq]

/-- The bits of a rounded magnitude, by powers. -/
theorem roundUnits_eq (n d : Nat) :
    roundUnits n d =
      min (roundShift n d * 2 ^ 52 + roundHalfEven n (d * 2 ^ roundShift n d)) (2047 * 2 ^ 52) := by
  simp only [roundUnits, Nat.shiftLeft_eq]

/-- The magnitude of a finite binary64, by powers. -/
theorem magUnits_eq (x : F64) :
    magUnits x = if expField x = 0 then fracField x else (2 ^ 52 + fracField x) * 2 ^ (expField x - 1) := by
  simp only [magUnits, Nat.shiftLeft_eq]

/-- The whole part of the value lies below 53 bits beyond the shift. -/
theorem div_lt_of_roundShift (n d : Nat) : n / d < 2 ^ (roundShift n d + 53) := by
  have h := Nat.lt_log2_self (n := n / d)
  refine lt_of_lt_of_le h (Nat.pow_le_pow_right (by norm_num) ?_)
  rw [roundShift_eq]
  omega

/-- With a shift, the whole part has its top bit 52 beyond it. -/
theorem le_div_of_roundShift_pos {n d : Nat} (h : 0 < roundShift n d) : 2 ^ (roundShift n d + 52) ≤ n / d := by
  have hne : n / d ≠ 0 := by
    intro h0
    simp [roundShift_eq, h0] at h
  have := Nat.log2_self_le hne
  refine le_trans (Nat.pow_le_pow_right (by norm_num) ?_) this
  rw [roundShift_eq] at *
  omega

/-- The kept digits are at most 2^53. -/
theorem roundDigits_le (n d : Nat) (hd : 0 < d) : roundHalfEven n (d * 2 ^ roundShift n d) ≤ 2 ^ 53 := by
  have hpow : 0 < 2 ^ roundShift n d := Nat.pow_pos (by norm_num)
  have hD : 0 < d * 2 ^ roundShift n d := Nat.mul_pos hd hpow
  have hlt := Nat.lt_mul_of_div_lt (div_lt_of_roundShift n d) hd
  have hle : n * (d * 2 ^ roundShift n d) ≤ 2 ^ 53 * (d * 2 ^ roundShift n d) * (d * 2 ^ roundShift n d) := by
    apply Nat.mul_le_mul_right
    rw [pow_add] at hlt
    nlinarith
  calc roundHalfEven n (d * 2 ^ roundShift n d)
      ≤ roundHalfEven (2 ^ 53 * (d * 2 ^ roundShift n d)) (d * 2 ^ roundShift n d) :=
        roundHalfEven_mono hD hD hle
    _ = 2 ^ 53 := roundHalfEven_mul _ _ hD

/-- With a shift, the kept digits are at least 2^52. -/
theorem le_roundDigits {n d : Nat} (hd : 0 < d) (h : 0 < roundShift n d) :
    2 ^ 52 ≤ roundHalfEven n (d * 2 ^ roundShift n d) := by
  have hpow : 0 < 2 ^ roundShift n d := Nat.pow_pos (by norm_num)
  have hD : 0 < d * 2 ^ roundShift n d := Nat.mul_pos hd hpow
  have hq := (Nat.le_div_iff_mul_le hd).mp (le_div_of_roundShift_pos h)
  have hle : 2 ^ 52 * (d * 2 ^ roundShift n d) * (d * 2 ^ roundShift n d) ≤ n * (d * 2 ^ roundShift n d) := by
    apply Nat.mul_le_mul_right
    rw [pow_add] at hq
    nlinarith
  calc 2 ^ 52 = roundHalfEven (2 ^ 52 * (d * 2 ^ roundShift n d)) (d * 2 ^ roundShift n d) :=
        (roundHalfEven_mul _ _ hD).symm
    _ ≤ _ := roundHalfEven_mono hD hD hle

/-- The bits never pass those of infinity. -/
theorem roundUnits_le (n d : Nat) : roundUnits n d ≤ 2047 * 2 ^ 52 := by
  rw [roundUnits_eq]
  exact Nat.min_le_right _ _

/-- A larger value does not round to a smaller binary64. -/
theorem roundUnits_mono {n₁ d₁ n₂ d₂ : Nat} (h₁ : 0 < d₁) (h₂ : 0 < d₂) (h : n₁ * d₂ ≤ n₂ * d₁) :
    roundUnits n₁ d₁ ≤ roundUnits n₂ d₂ := by
  have hdiv : n₁ / d₁ ≤ n₂ / d₂ := by
    rw [Nat.le_div_iff_mul_le h₂]
    apply Nat.le_of_mul_le_mul_right _ h₁
    calc n₁ / d₁ * d₂ * d₁ = (n₁ / d₁ * d₁) * d₂ := by ring
      _ ≤ n₁ * d₂ := Nat.mul_le_mul_right _ (Nat.div_mul_le_self _ _)
      _ ≤ n₂ * d₁ := h
  have hk : roundShift n₁ d₁ ≤ roundShift n₂ d₂ := by
    rw [roundShift_eq, roundShift_eq]
    have : Nat.log2 (n₁ / d₁) ≤ Nat.log2 (n₂ / d₂) := by
      rw [Nat.log2_eq_log_two, Nat.log2_eq_log_two]
      exact Nat.log_mono_right hdiv
    omega
  rw [roundUnits_eq, roundUnits_eq]
  apply min_le_min_right
  rcases Nat.eq_or_lt_of_le hk with heq | hlt
  · rw [heq]
    apply Nat.add_le_add_left
    apply roundHalfEven_mono (by positivity) (by positivity)
    calc n₁ * (d₂ * 2 ^ roundShift n₂ d₂) = (n₁ * d₂) * 2 ^ roundShift n₂ d₂ := by ring
      _ ≤ (n₂ * d₁) * 2 ^ roundShift n₂ d₂ := Nat.mul_le_mul_right _ h
      _ = n₂ * (d₁ * 2 ^ roundShift n₂ d₂) := by ring
  · have a := roundDigits_le n₁ d₁ h₁
    have b := le_roundDigits h₂ (lt_of_le_of_lt (Nat.zero_le _) hlt)
    omega

/-- The value that the bits k * 2^52 + m of a finite magnitude stand for, in units: m * 2^k. -/
theorem units_of_bits {k m : Nat} (hm : m ≤ 2 ^ 53) (hk : k = 0 ∨ 2 ^ 52 ≤ m) :
    (if (k * 2 ^ 52 + m) / 2 ^ 52 = 0 then (k * 2 ^ 52 + m) % 2 ^ 52
      else (2 ^ 52 + (k * 2 ^ 52 + m) % 2 ^ 52) * 2 ^ ((k * 2 ^ 52 + m) / 2 ^ 52 - 1)) = m * 2 ^ k := by
  have hdiv : (k * 2 ^ 52 + m) / 2 ^ 52 = k + m / 2 ^ 52 := by omega
  have hmod : (k * 2 ^ 52 + m) % 2 ^ 52 = m % 2 ^ 52 := by omega
  rw [hdiv, hmod]
  rcases Nat.lt_or_ge m (2 ^ 52) with hlt | hge
  · have hk0 : k = 0 := by omega
    subst hk0
    have h0 : m / 2 ^ 52 = 0 := by omega
    have h1 : m % 2 ^ 52 = m := by omega
    simp only [Nat.zero_add, h0, h1, if_true, pow_zero, mul_one]
  · rcases Nat.lt_or_ge m (2 ^ 53) with hlt | hge2
    · have h0 : m / 2 ^ 52 = 1 := by omega
      have h1 : 2 ^ 52 + m % 2 ^ 52 = m := by omega
      rw [h0, if_neg (by omega), h1, show k + 1 - 1 = k by omega]
    · have hm' : m = 2 ^ 53 := by omega
      subst hm'
      have h0 : (2 : Nat) ^ 53 / 2 ^ 52 = 2 := by norm_num
      have h1 : (2 : Nat) ^ 53 % 2 ^ 52 = 0 := by norm_num
      rw [h0, if_neg (by omega), h1, show k + 2 - 1 = k + 1 by omega, pow_succ 2 k]
      ring

/-- The fields of a packed binary64. -/
theorem expField_packF64 (neg : Bool) {mag : Nat} (h : mag < 2 ^ 63) : expField (packF64 neg mag) = mag / 2 ^ 52 := by
  have : (packF64 neg mag).extractLsb' 52 11 = BitVec.ofNat 11 (mag / 2 ^ 52) := by
    apply BitVec.eq_of_getLsbD_eq
    intro i hi
    simp only [packF64, BitVec.getLsbD_extractLsb', BitVec.getLsbD_append, BitVec.getLsbD_ofNat, hi,
      show 52 + i < 63 by omega, Nat.testBit_div_two_pow, decide_true, Bool.true_and, if_true]
    simp [Nat.add_comm]
  rw [expField, this, BitVec.toNat_ofNat, Nat.mod_eq_of_lt (by omega)]

theorem fracField_packF64 (neg : Bool) (mag : Nat) : fracField (packF64 neg mag) = mag % 2 ^ 52 := by
  have : (packF64 neg mag).extractLsb' 0 52 = BitVec.ofNat 52 mag := by
    apply BitVec.eq_of_getLsbD_eq
    intro i hi
    simp only [packF64, BitVec.getLsbD_extractLsb', BitVec.getLsbD_append, BitVec.getLsbD_ofNat, hi,
      show 0 + i < 63 by omega, decide_true, Bool.true_and, if_true]
    simp
  rw [fracField, this, BitVec.toNat_ofNat]

theorem msb_packF64 (neg : Bool) (mag : Nat) : (packF64 neg mag).msb = neg := by
  simp only [packF64, BitVec.msb_eq_getLsbD_last, BitVec.getLsbD_append]
  simp

/-- The magnitude of a packed rounding result that is not infinity: the kept digits at their place. -/
theorem magUnits_packF64_roundUnits (neg : Bool) {n d : Nat} (hd : 0 < d) (hfin : roundUnits n d < 2047 * 2 ^ 52) :
    magUnits (packF64 neg (roundUnits n d)) =
      roundHalfEven n (d * 2 ^ roundShift n d) * 2 ^ roundShift n d := by
  have hbits : roundUnits n d = roundShift n d * 2 ^ 52 + roundHalfEven n (d * 2 ^ roundShift n d) := by
    rw [roundUnits_eq] at *
    omega
  rw [magUnits_eq, expField_packF64 neg (by omega), fracField_packF64, hbits]
  apply units_of_bits (roundDigits_le n d hd)
  rcases Nat.eq_zero_or_pos (roundShift n d) with h0 | hpos
  · exact Or.inl h0
  · exact Or.inr (le_roundDigits hd hpos)

/-- A packed rounding result is finite when it is not infinity. -/
theorem isFinite_packF64 (neg : Bool) {mag : Nat} (h : mag < 2047 * 2 ^ 52) : isFinite (packF64 neg mag) = true := by
  rw [isFinite, expField_packF64 neg (by omega)]
  simp only [bne_iff_ne, ne_eq]
  omega

/-- A value that fits in 53 bits at its shift is kept exactly. -/
theorem roundUnits_exact {m k : Nat} (hm : m < 2 ^ 53) (hk : k = 0 ∨ 2 ^ 52 ≤ m) (hfin : k < 2046) (d : Nat) (hd : 0 < d) :
    roundUnits (m * 2 ^ k * d) d = k * 2 ^ 52 + m := by
  have hdiv : m * 2 ^ k * d / d = m * 2 ^ k := Nat.mul_div_cancel _ hd
  have hshift : roundShift (m * 2 ^ k * d) d = k := by
    rw [roundShift_eq, hdiv]
    rcases hk with rfl | hge
    · have : Nat.log2 (m * 2 ^ 0) < 53 ∨ m = 0 := by
        rcases Nat.eq_zero_or_pos m with h0 | hp
        · exact Or.inr h0
        · left
          rw [pow_zero, mul_one]
          exact (Nat.log2_lt (by omega)).mpr hm
      rcases this with h | rfl
      · omega
      · simp
    · have hne : m ≠ 0 := by
        intro h0
        rw [h0] at hge
        exact absurd hge (by norm_num)
      have hlog : Nat.log2 m = 52 := by
        have l1 := (Nat.log2_lt hne).mpr hm
        have l2 := (Nat.le_log2 hne).mpr hge
        omega
      have : Nat.log2 (m * 2 ^ k) = 52 + k := by
        rw [Nat.log2_eq_iff (by positivity)]
        obtain ⟨l1, l2⟩ := (Nat.log2_eq_iff hne).mp hlog
        refine ⟨?_, ?_⟩
        · rw [pow_add]
          exact Nat.mul_le_mul_right _ l1
        · rw [show 52 + k + 1 = (52 + 1) + k by omega, pow_add]
          exact Nat.mul_lt_mul_of_pos_right l2 (by positivity)
      omega
  rw [roundUnits_eq, hshift, show m * 2 ^ k * d = m * (d * 2 ^ k) by ring, roundHalfEven_mul _ _ (by positivity)]
  omega

/-- Larger bits stand for a larger magnitude. -/
theorem magUnits_packF64_mono (neg neg' : Bool) {a b : Nat} (h : a ≤ b) (hb : b < 2047 * 2 ^ 52) :
    magUnits (packF64 neg a) ≤ magUnits (packF64 neg' b) := by
  rw [magUnits_eq, magUnits_eq, expField_packF64 neg (by omega), expField_packF64 neg' (by omega),
    fracField_packF64, fracField_packF64]
  have hfa : a % 2 ^ 52 < 2 ^ 52 := Nat.mod_lt _ (by norm_num)
  rcases Nat.eq_or_lt_of_le (Nat.div_le_div_right (c := 2 ^ 52) h) with he | hlt
  · have hf : a % 2 ^ 52 ≤ b % 2 ^ 52 := by omega
    rw [he]
    split
    · exact hf
    · exact Nat.mul_le_mul_right _ (by omega)
  · rw [if_neg (by omega : b / 2 ^ 52 ≠ 0)]
    generalize a % 2 ^ 52 = fa at *
    generalize b % 2 ^ 52 = fb at *
    split
    · calc fa ≤ (2 ^ 52 + fb) * 1 := by omega
        _ ≤ _ := Nat.mul_le_mul_left _ Nat.one_le_two_pow
    · generalize a / 2 ^ 52 = ea at *
      generalize b / 2 ^ 52 = eb at *
      calc (2 ^ 52 + fa) * 2 ^ (ea - 1) ≤ (2 ^ 52 * 2) * 2 ^ (ea - 1) := Nat.mul_le_mul_right _ (by omega)
        _ = 2 ^ 52 * 2 ^ (ea - 1 + 1) := by rw [Nat.mul_assoc, pow_succ' 2 (ea - 1)]
        _ ≤ (2 ^ 52 + fb) * 2 ^ (eb - 1) :=
          Nat.mul_le_mul (by omega) (Nat.pow_le_pow_right (by norm_num) (by omega))

/-- A whole number of units that its shift divides is kept exactly. -/
theorem magUnits_packF64_roundUnits_exact (neg : Bool) {n : Nat} (hdvd : 2 ^ roundShift n 1 ∣ n)
    (hfin : roundUnits n 1 < 2047 * 2 ^ 52) : magUnits (packF64 neg (roundUnits n 1)) = n := by
  rw [magUnits_packF64_roundUnits neg Nat.one_pos hfin, Nat.one_mul]
  obtain ⟨m, hm⟩ := hdvd
  have hpos : 0 < 2 ^ roundShift n 1 := Nat.two_pow_pos _
  have : roundHalfEven n (2 ^ roundShift n 1) = m := by
    have h := roundHalfEven_mul m _ hpos
    rwa [Nat.mul_comm, ← hm] at h
  rw [this, Nat.mul_comm]
  exact hm.symm

/-- The bits of an integer below 2^53 are finite, and its digits are kept. -/
theorem roundShift_integer {n : Nat} (hn : n < 2 ^ 53) :
    2 ^ roundShift (n * oneUnits) 1 ∣ n * oneUnits ∧ roundUnits (n * oneUnits) 1 < 2047 * 2 ^ 52 := by
  have hk : roundShift (n * oneUnits) 1 ≤ 1074 := by
    rw [roundShift_eq, Nat.div_one]
    rcases Nat.eq_zero_or_pos n with rfl | hpos
    · rw [Nat.zero_mul, Nat.log2_zero]
      omega
    · have hlt : n * oneUnits < 2 ^ (53 + 1074) := by
        rw [oneUnits_eq, pow_add]
        exact Nat.mul_lt_mul_of_pos_right hn (by positivity)
      have := (Nat.log2_lt (Nat.mul_ne_zero hpos.ne' oneUnits_pos.ne')).mpr hlt
      clear hlt
      omega
  refine ⟨?_, ?_⟩
  · exact Dvd.dvd.mul_left (two_pow_dvd_oneUnits hk) n
  · have hm := roundDigits_le (n * oneUnits) 1 Nat.one_pos
    rw [roundUnits_eq]
    omega

/-- `f64(n)` is exact below 2^53 (00_scope.md R12). -/
theorem magUnits_f64 {n : Nat} (hn : n < 2 ^ 53) : magUnits (f64 n) = n * oneUnits := by
  obtain ⟨hdvd, hfin⟩ := roundShift_integer hn
  rw [f64, rne64]
  exact magUnits_packF64_roundUnits_exact _ hdvd hfin

theorem isFinite_f64 {n : Nat} (hn : n < 2 ^ 53) : isFinite (f64 n) = true := by
  rw [f64, rne64]
  exact isFinite_packF64 _ (roundShift_integer hn).2

theorem msb_f64 (n : Nat) : (f64 n).msb = false := by
  rw [f64, rne64, msb_packF64]
  simp

theorem isNaN_of_isFinite {x : F64} (h : isFinite x = true) : isNaN x = false := by
  simp_all [isFinite, isNaN]

theorem isInf_of_isFinite {x : F64} (h : isFinite x = true) : isInf x = false := by
  simp_all [isFinite, isInf]

/-- A nonnegative rational rounds to a binary64 of positive sign. -/
theorem rne64_natCast (n d : Nat) : rne64 (n : Int) d = packF64 false (roundUnits (n * oneUnits) d) := by
  rw [rne64, Int.natAbs_natCast, decide_eq_false (by omega)]

/-- `fmul` of finite operands. -/
theorem fmul_of_finite {a b : F64} (ha : isFinite a = true) (hb : isFinite b = true) :
    fmul a b = packF64 (a.msb ^^ b.msb) (roundUnits (magUnits a * magUnits b) oneUnits) := by
  simp only [fmul, isNaN_of_isFinite ha, isNaN_of_isFinite hb, isInf_of_isFinite ha, isInf_of_isFinite hb,
    Bool.or_self, Bool.false_eq_true, if_false]

/-- `fdiv` of finite operands, the divisor not zero. -/
theorem fdiv_of_finite {a b : F64} (ha : isFinite a = true) (hb : isFinite b = true) (h0 : magUnits b ≠ 0) :
    fdiv a b = packF64 (a.msb ^^ b.msb) (roundUnits (magUnits a * oneUnits) (magUnits b)) := by
  simp only [fdiv, isNaN_of_isFinite ha, isNaN_of_isFinite hb, isInf_of_isFinite ha, isInf_of_isFinite hb,
    Bool.or_self, Bool.false_eq_true, if_false, h0]

/-- `fsub` of finite operands. -/
theorem fsub_of_finite {a b : F64} (ha : isFinite a = true) (hb : isFinite b = true) :
    fsub a b = if units a - units b = 0 then packF64 (a.msb && !b.msb) 0
      else packF64 (decide (units a - units b < 0)) (roundUnits (units a - units b).natAbs 1) := by
  simp only [fsub, isNaN_of_isFinite ha, isNaN_of_isFinite hb, isInf_of_isFinite ha, isInf_of_isFinite hb,
    Bool.or_self, Bool.false_eq_true, if_false]

/-- The value of a binary64 of positive sign is its magnitude. -/
theorem units_of_msb_false {x : F64} (h : x.msb = false) : units x = magUnits x := by
  simp only [units, h, Bool.false_eq_true, if_false]

/-- Only the value counts: a fraction scaled in both parts rounds the same. -/
theorem roundUnits_scale {n d c : Nat} (hd : 0 < d) (hc : 0 < c) : roundUnits (n * c) (d * c) = roundUnits n d := by
  have hdc : 0 < d * c := Nat.mul_pos hd hc
  apply Nat.le_antisymm
  · exact roundUnits_mono hdc hd (le_of_eq (by ring))
  · exact roundUnits_mono hd hdc (le_of_eq (by ring))

end Sys2Proof.Machine
end

