-- ==== Sys2Proof/Laws/Crc.lean ====
section
/-! SUPPORT. The small laws of the CRC functions: the shift step is linear and injective, and the folds
unroll. -/

namespace Sys2Proof.Machine

@[simp] theorem crcShifts_zero (r : Byte) : crcShifts 0 r = r := rfl

@[simp] theorem crcShifts_succ (n : Nat) (r : Byte) : crcShifts (n + 1) r = crcShifts n (crcShift r) := rfl

/-- The shift step is linear over GF(2). -/
theorem crcShift_xor (a b : Byte) : crcShift (a ^^^ b) = crcShift a ^^^ crcShift b := by
  unfold crcShift Config.crcPoly
  simp only [BitVec.getLsbD_xor]
  cases a.getLsbD 7 <;> cases b.getLsbD 7 <;>
    simp only [BitVec.shiftLeft_xor_distrib, Bool.xor_false, Bool.xor_true, Bool.not_true, Bool.not_false,
      Bool.false_eq_true, if_true, if_false] <;> first | rfl | ac_rfl | (ac_nf; simp)

/-- So are any number of them. -/
theorem crcShifts_xor (n : Nat) (a b : Byte) : crcShifts n (a ^^^ b) = crcShifts n a ^^^ crcShifts n b := by
  induction n generalizing a b with
  | zero => rfl
  | succ n ih => simp only [crcShifts_succ, crcShift_xor, ih]

/-- Only 0 shifts to 0: the polynomial's bit 0 marks a bit shifted out. -/
theorem crcShift_eq_zero {r : Byte} (h : crcShift r = 0) : r = 0 := by
  revert r
  decide

@[simp] theorem crcShifts_of_zero (n : Nat) : crcShifts n 0 = 0 := by
  induction n with
  | zero => rfl
  | succ n ih => simpa [crcShift] using ih

/-- The check is the equality of the computed and the received byte. -/
theorem tripletMatches_iff (b0 b1 c : Byte) : tripletMatches b0 b1 c = true ↔ crc8 [b0, b1] = c := by
  simp [tripletMatches]

@[simp] theorem tMatch_eq (b0 b1 b2 : Byte) : tMatch b0 b1 b2 = tripletMatches b0 b1 b2 := rfl

@[simp] theorem hMatch_eq (b3 b4 b5 : Byte) : hMatch b3 b4 b5 = tripletMatches b3 b4 b5 := rfl

@[simp] theorem stMatch_eq (b0 b1 b2 : Byte) : stMatch b0 b1 b2 = tripletMatches b0 b1 b2 := rfl

/-- The wide register's steps, one at a time. -/
theorem wideShifts_succ (n r : Nat) : wideShifts (n + 1) r = wideShifts n (wideShift r) := rfl

end Sys2Proof.Machine
end

