-- ==== Sys2Proof/Laws/Decode.lean ====
section
/-! SUPPORT. What the fields of a built word read back as, and the one inversion of the decoder. -/

namespace Sys2Proof

@[simp] theorem opField_opWord (op : BitVec 4) (opnd : BitVec 48) : opField (opWord op opnd) = op := by
  ext i hi
  simp only [opField, opWord, BitVec.getElem_extractLsb', BitVec.getLsbD_append]
  simp [show ¬ (60 + i < 12 + 48) by omega, show 60 + i - (12 + 48) = i by omega, hi]

@[simp] theorem rsvField_opWord (op : BitVec 4) (opnd : BitVec 48) : rsvField (opWord op opnd) = 0 := by
  ext i hi
  simp only [rsvField, opWord, BitVec.getElem_extractLsb', BitVec.getLsbD_append]
  simp [show 48 + i < 12 + 48 by omega]

@[simp] theorem opndField_opWord (op : BitVec 4) (opnd : BitVec 48) : opndField (opWord op opnd) = opnd := by
  ext i hi
  simp only [opndField, opWord, BitVec.getElem_extractLsb', BitVec.getLsbD_append]
  simp only [Nat.zero_add, hi, show i < 12 + 48 by omega, if_true]
  simp [hi]

/-- A word is its three fields. -/
theorem word_eq_fields (w : Word) : w = opField w ++ (rsvField w ++ opndField w) := by
  apply BitVec.eq_of_getLsbD_eq
  intro i hi
  simp only [opField, rsvField, opndField, BitVec.getLsbD_append, BitVec.getLsbD_extractLsb']
  grind

/-- A decoded operation comes from a word whose reserved bits are 0 and whose op and operand give it. -/
theorem decode_legal_fields {w : Word} {i : Instr} (h : decode w = .legal i) :
    rsvField w = 0 ∧ decodeOperand (opField w) (opndField w) = .legal i := by
  unfold decode at h
  split at h
  · exact ⟨‹_›, h⟩
  · cases h

/-- The other direction: what op and operand give is what a word with reserved bits 0 decodes to. -/
theorem decode_of_rsv_zero {w : Word} (h : rsvField w = 0) :
    decode w = decodeOperand (opField w) (opndField w) := by
  simp [decode, h]

@[simp] theorem legalIf_true (i : Instr) : legalIf true i = .legal i := rfl

@[simp] theorem legalIf_false (i : Instr) : legalIf false i = .illegal .unusedOperandBits := rfl

theorem legalIf_eq_legal_iff (c : Bool) (i j : Instr) : legalIf c i = .legal j ↔ c = true ∧ i = j := by
  cases c <;> simp [legalIf]

/-- The bytes of a one-byte operand, and its unused bits. -/
theorem frameByte_one (d : Byte) :
    frameByte 1 0 (0#40 ++ d) = d ∧ BitVec.extractLsb' 8 40 (0#40 ++ d) = 0 := by
  refine ⟨?_, ?_⟩ <;> apply BitVec.eq_of_getLsbD_eq <;> intro i hi <;>
    simp only [frameByte, BitVec.getLsbD_extractLsb', BitVec.getLsbD_append] <;> grind

/-- The bytes of a three-byte frame, and the operand's unused bits. -/
theorem frameByte_three (b0 b1 b2 : Byte) :
    frameByte 3 0 (0#24 ++ (b0 ++ (b1 ++ b2))) = b0 ∧ frameByte 3 1 (0#24 ++ (b0 ++ (b1 ++ b2))) = b1 ∧
    frameByte 3 2 (0#24 ++ (b0 ++ (b1 ++ b2))) = b2 ∧
    BitVec.extractLsb' 24 24 (0#24 ++ (b0 ++ (b1 ++ b2))) = 0 := by
  refine ⟨?_, ?_, ?_, ?_⟩ <;> apply BitVec.eq_of_getLsbD_eq <;> intro i hi <;>
    simp only [frameByte, BitVec.getLsbD_extractLsb', BitVec.getLsbD_append] <;> grind

/-- The bytes of a six-byte frame. -/
theorem frameByte_six (b0 b1 b2 b3 b4 b5 : Byte) :
    frameByte 6 0 (b0 ++ (b1 ++ (b2 ++ (b3 ++ (b4 ++ b5))))) = b0 ∧
    frameByte 6 1 (b0 ++ (b1 ++ (b2 ++ (b3 ++ (b4 ++ b5))))) = b1 ∧
    frameByte 6 2 (b0 ++ (b1 ++ (b2 ++ (b3 ++ (b4 ++ b5))))) = b2 ∧
    frameByte 6 3 (b0 ++ (b1 ++ (b2 ++ (b3 ++ (b4 ++ b5))))) = b3 ∧
    frameByte 6 4 (b0 ++ (b1 ++ (b2 ++ (b3 ++ (b4 ++ b5))))) = b4 ∧
    frameByte 6 5 (b0 ++ (b1 ++ (b2 ++ (b3 ++ (b4 ++ b5))))) = b5 := by
  refine ⟨?_, ?_, ?_, ?_, ?_, ?_⟩ <;> apply BitVec.eq_of_getLsbD_eq <;> intro i hi <;>
    simp only [frameByte, BitVec.getLsbD_extractLsb', BitVec.getLsbD_append] <;> grind

end Sys2Proof
end

