-- ==== Sys2Proof/Laws/HostContext.lean ====
section
/-! SUPPORT. What the host's actions can do to its phase, one lemma for each kind of action, so that a
proof about a sequence need not unfold `HostPhase.allows`. -/

namespace Sys2Proof.Machine

/-- The eleven opcodes are different, so a command is found by its opcode. -/
@[simp] theorem commandOf_opcode (c : SensorCommand) : commandOf c.opcode = some c := by
  cases c
  case measureHighRep cs => cases cs <;> decide
  case measureMedRep cs => cases cs <;> decide
  case measureLowRep cs => cases cs <;> decide
  all_goals decide

/-- The two bytes of a command's write are its opcode. -/
theorem opcode_of_bytes (h : Half) : h.extractLsb' 8 8 ++ h.extractLsb' 0 8 = h := by
  rw [BitVec.extractLsb'_append_extractLsb'_eq_extractLsb' (by rfl)]
  simp

theorem HostPhase.allowsWrite_opcode (p : HostPhase) (c : SensorCommand) (delivered : Bool) :
    p.allowsWrite c.opcode delivered =
      if p.mayCommand then some (if delivered then p.afterCommand c else p) else none := by
  simp [HostPhase.allowsWrite]

/-- All that sending a command to the host's own address can do. -/
theorem HostPhase.allows_sendCommand {p : HostPhase} {address : BitVec 7} (h : address = p.address)
    (c : SensorCommand) (delivered : Bool) :
    p.allows (sendCommand address c delivered) =
      if p.mayCommand then some (if delivered then p.afterCommand c else p) else none := by
  subst h
  simp only [HostPhase.allows, sendCommand, if_true, opcode_of_bytes, HostPhase.allowsWrite_opcode]

/-- All that a read from the host's own address can do while a response is outstanding. -/
theorem HostPhase.allows_readBlock {p : HostPhase} {c : SensorCommand} {address : BitVec 7}
    (ha : address = p.address) (h : p.awaiting = some c)
    (registerByte : Byte) (length : Nat) (result : Option (List Byte)) :
    p.allows (.readBlock address registerByte length result) =
      if length == c.responseLength && p.conversionOwed == 0 && readRegisterOk c registerByte then
        some { p with awaiting := none }
      else none := by
  simp [HostPhase.allows, HostPhase.allowsRead, ha, h]

/-- A read that no command asked for breaks the sequence (log entry 25). -/
theorem HostPhase.allows_readBlock_unasked {p : HostPhase} (h : p.awaiting = none)
    (registerByte : Byte) (length : Nat) (result : Option (List Byte)) :
    p.allows (.readBlock p.address registerByte length result) = none := by
  simp [HostPhase.allows, HostPhase.allowsRead, h]

/-- A write elsewhere changes nothing (log entry 24). -/
theorem HostPhase.allows_write_elsewhere {p : HostPhase} {address : BitVec 7} (h : address ≠ p.address)
    (registerByte dataByte : Byte) (delivered : Bool) :
    p.allows (.write address registerByte dataByte delivered) = some p := by
  simp [HostPhase.allows, h]

/-- A read elsewhere changes nothing (log entry 24). -/
theorem HostPhase.allows_readBlock_elsewhere {p : HostPhase} {address : BitVec 7} (h : address ≠ p.address)
    (registerByte : Byte) (length : Nat) (result : Option (List Byte)) :
    p.allows (.readBlock address registerByte length result) = some p := by
  simp [HostPhase.allows, h]

@[simp] theorem HostPhase.allows_wait (p : HostPhase) (ms : Nat) :
    p.allows (.wait ms) = some (p.afterWait ms) := rfl

@[simp] theorem HostPhase.afterWait_address (p : HostPhase) (ms : Nat) :
    (p.afterWait ms).address = p.address := rfl

@[simp] theorem HostPhase.afterWait_constructed (p : HostPhase) (ms : Nat) :
    (p.afterWait ms).constructed = p.constructed := rfl

@[simp] theorem HostPhase.afterWait_powerOnOwed (p : HostPhase) (ms : Nat) :
    (p.afterWait ms).powerOnOwed = p.powerOnOwed - ms := rfl

@[simp] theorem HostPhase.afterWait_resetOwed (p : HostPhase) (ms : Nat) :
    (p.afterWait ms).resetOwed = p.resetOwed - ms := rfl

@[simp] theorem HostPhase.afterWait_conversionOwed (p : HostPhase) (ms : Nat) :
    (p.afterWait ms).conversionOwed = p.conversionOwed - ms := rfl

@[simp] theorem HostPhase.afterWait_awaiting (p : HostPhase) (ms : Nat) :
    (p.afterWait ms).awaiting = p.awaiting := rfl

@[simp] theorem HostPhase.afterCommand_address (p : HostPhase) (c : SensorCommand) :
    (p.afterCommand c).address = p.address := by
  cases c
  all_goals rfl

/-- A command with a response is outstanding after it. -/
theorem HostPhase.afterCommand_awaiting {c : SensorCommand} (h : c.responseLength ≠ 0) (p : HostPhase) :
    (p.afterCommand c).awaiting = some c := by
  cases c
  case clearStatus => exact absurd rfl h
  case softReset => exact absurd rfl h
  case heaterOn => exact absurd rfl h
  case heaterOff => exact absurd rfl h
  all_goals rfl

/-- While a response is outstanding no command may be issued (70_reset_and_hazards.md R239). -/
theorem HostPhase.mayCommand_of_awaiting {p : HostPhase} {c : SensorCommand} (h : p.awaiting = some c) :
    p.mayCommand = false := by
  simp [HostPhase.mayCommand, h]

/-- No action changes the address that the host's obligations are about. -/
theorem HostPhase.allows_address {p q : HostPhase} {a : HostAction} (h : p.allows a = some q) :
    q.address = p.address := by
  cases a with
  | construct =>
    simp only [HostPhase.allows] at h
    split at h <;> simp_all
    exact h ▸ rfl
  | wait ms => simp only [HostPhase.allows_wait, Option.some.injEq] at h; exact h ▸ rfl
  | write address registerByte dataByte delivered =>
    simp only [HostPhase.allows, HostPhase.allowsWrite] at h
    repeat' split at h
    all_goals simp_all
    all_goals exact h ▸ by simp
  | readBlock address registerByte length result =>
    simp only [HostPhase.allows, HostPhase.allowsRead] at h
    repeat' split at h
    all_goals simp_all
    all_goals exact h ▸ rfl
  | issue w => simp_all [HostPhase.allows]
  | readOutputs => simp_all [HostPhase.allows]

@[simp] theorem HostPhase.allowsAll_nil (p : HostPhase) : p.allowsAll [] = some p := rfl

theorem HostPhase.allowsAll_cons (p : HostPhase) (a : HostAction) (rest : List HostAction) :
    p.allowsAll (a :: rest) = (p.allows a).bind fun q => q.allowsAll rest := by
  rw [HostPhase.allowsAll]
  cases p.allows a <;> rfl

theorem HostPhase.allowsAll_append (p : HostPhase) (first rest : List HostAction) :
    p.allowsAll (first ++ rest) = (p.allowsAll first).bind fun q => q.allowsAll rest := by
  induction first generalizing p with
  | nil => rfl
  | cons a first ih =>
    rw [List.cons_append, HostPhase.allowsAll_cons, HostPhase.allowsAll_cons]
    cases p.allows a with
    | none => rfl
    | some q => exact ih q

@[simp] theorem sfpEvents_append (first rest : List HostAction) :
    sfpEvents (first ++ rest) = sfpEvents first ++ sfpEvents rest := List.filterMap_append

/-- A reading gives the SFP the operation of its response, or nothing (20_memory.md R64, R65). -/
theorem sfpEvents_reading (c : SensorCommand) (address : BitVec 7) (registerByte : Byte) (delivered : Bool)
    (result : Option (List Byte)) :
    sfpEvents (reading c address registerByte delivered result) =
      if delivered then (handOver c result).toList.map fun i => .word (encode i) else [] := by
  cases delivered
  · rfl
  · cases h : handOver c result <;> simp [reading, sfpEvents, useResponse, sendCommand, h]

/-- A failed read hands nothing over (20_memory.md R65). -/
theorem handOver_none (c : SensorCommand) : handOver c none = none := by
  cases c
  all_goals rfl

end Sys2Proof.Machine
end

