-- ==== Sys2Proof/Laws/State.lean ====
section
/-! SUPPORT. One lemma per field per update of the state, each true by unfolding the update once, and
what two updates of one kind in a row do. -/

namespace Sys2Proof.Machine

@[simp] theorem State.writeAcc_acc (s : State) (v : Byte) :
    (s.writeAcc v).acc = v := rfl
@[simp] theorem State.writeAcc_mv (s : State) (v : Byte) :
    (s.writeAcc v).mv = s.mv := rfl
@[simp] theorem State.writeAcc_tOk (s : State) (v : Byte) :
    (s.writeAcc v).tOk = s.tOk := rfl
@[simp] theorem State.writeAcc_hOk (s : State) (v : Byte) :
    (s.writeAcc v).hOk = s.hOk := rfl
@[simp] theorem State.writeAcc_tVal (s : State) (v : Byte) :
    (s.writeAcc v).tVal = s.tVal := rfl
@[simp] theorem State.writeAcc_hVal (s : State) (v : Byte) :
    (s.writeAcc v).hVal = s.hVal := rfl
@[simp] theorem State.writeAcc_sv (s : State) (v : Byte) :
    (s.writeAcc v).sv = s.sv := rfl
@[simp] theorem State.writeAcc_stOk (s : State) (v : Byte) :
    (s.writeAcc v).stOk = s.stOk := rfl
@[simp] theorem State.writeAcc_stWord (s : State) (v : Byte) :
    (s.writeAcc v).stWord = s.stWord := rfl
@[simp] theorem State.writeAcc_err (s : State) (v : Byte) :
    (s.writeAcc v).err = s.err := rfl
@[simp] theorem State.writeAcc_input (s : State) (v : Byte) :
    (s.writeAcc v).input = s.input := rfl

@[simp] theorem State.writeMeasurement_acc (s : State) (tOk : Bool) (tVal : F64) (hOk : Bool) (hVal : F64) :
    (s.writeMeasurement tOk tVal hOk hVal).acc = s.acc := rfl
@[simp] theorem State.writeMeasurement_mv (s : State) (tOk : Bool) (tVal : F64) (hOk : Bool) (hVal : F64) :
    (s.writeMeasurement tOk tVal hOk hVal).mv = true := rfl
@[simp] theorem State.writeMeasurement_tOk (s : State) (tOk : Bool) (tVal : F64) (hOk : Bool) (hVal : F64) :
    (s.writeMeasurement tOk tVal hOk hVal).tOk = some tOk := rfl
@[simp] theorem State.writeMeasurement_hOk (s : State) (tOk : Bool) (tVal : F64) (hOk : Bool) (hVal : F64) :
    (s.writeMeasurement tOk tVal hOk hVal).hOk = some hOk := rfl
@[simp] theorem State.writeMeasurement_tVal (s : State) (tOk : Bool) (tVal : F64) (hOk : Bool) (hVal : F64) :
    (s.writeMeasurement tOk tVal hOk hVal).tVal = some tVal := rfl
@[simp] theorem State.writeMeasurement_hVal (s : State) (tOk : Bool) (tVal : F64) (hOk : Bool) (hVal : F64) :
    (s.writeMeasurement tOk tVal hOk hVal).hVal = some hVal := rfl
@[simp] theorem State.writeMeasurement_sv (s : State) (tOk : Bool) (tVal : F64) (hOk : Bool) (hVal : F64) :
    (s.writeMeasurement tOk tVal hOk hVal).sv = s.sv := rfl
@[simp] theorem State.writeMeasurement_stOk (s : State) (tOk : Bool) (tVal : F64) (hOk : Bool) (hVal : F64) :
    (s.writeMeasurement tOk tVal hOk hVal).stOk = s.stOk := rfl
@[simp] theorem State.writeMeasurement_stWord (s : State) (tOk : Bool) (tVal : F64) (hOk : Bool) (hVal : F64) :
    (s.writeMeasurement tOk tVal hOk hVal).stWord = s.stWord := rfl
@[simp] theorem State.writeMeasurement_err (s : State) (tOk : Bool) (tVal : F64) (hOk : Bool) (hVal : F64) :
    (s.writeMeasurement tOk tVal hOk hVal).err = s.err := rfl
@[simp] theorem State.writeMeasurement_input (s : State) (tOk : Bool) (tVal : F64) (hOk : Bool) (hVal : F64) :
    (s.writeMeasurement tOk tVal hOk hVal).input = s.input := rfl

@[simp] theorem State.writeStatus_acc (s : State) (ok : Bool) (w : Half) :
    (s.writeStatus ok w).acc = s.acc := rfl
@[simp] theorem State.writeStatus_mv (s : State) (ok : Bool) (w : Half) :
    (s.writeStatus ok w).mv = s.mv := rfl
@[simp] theorem State.writeStatus_tOk (s : State) (ok : Bool) (w : Half) :
    (s.writeStatus ok w).tOk = s.tOk := rfl
@[simp] theorem State.writeStatus_hOk (s : State) (ok : Bool) (w : Half) :
    (s.writeStatus ok w).hOk = s.hOk := rfl
@[simp] theorem State.writeStatus_tVal (s : State) (ok : Bool) (w : Half) :
    (s.writeStatus ok w).tVal = s.tVal := rfl
@[simp] theorem State.writeStatus_hVal (s : State) (ok : Bool) (w : Half) :
    (s.writeStatus ok w).hVal = s.hVal := rfl
@[simp] theorem State.writeStatus_sv (s : State) (ok : Bool) (w : Half) :
    (s.writeStatus ok w).sv = true := rfl
@[simp] theorem State.writeStatus_stOk (s : State) (ok : Bool) (w : Half) :
    (s.writeStatus ok w).stOk = some ok := rfl
@[simp] theorem State.writeStatus_stWord (s : State) (ok : Bool) (w : Half) :
    (s.writeStatus ok w).stWord = if ok then some w else none := rfl
@[simp] theorem State.writeStatus_err (s : State) (ok : Bool) (w : Half) :
    (s.writeStatus ok w).err = s.err := rfl
@[simp] theorem State.writeStatus_input (s : State) (ok : Bool) (w : Half) :
    (s.writeStatus ok w).input = s.input := rfl

@[simp] theorem State.raiseIllegal_acc (s : State) (w : Word) :
    (s.raiseIllegal w).acc = s.acc := rfl
@[simp] theorem State.raiseIllegal_mv (s : State) (w : Word) :
    (s.raiseIllegal w).mv = s.mv := rfl
@[simp] theorem State.raiseIllegal_tOk (s : State) (w : Word) :
    (s.raiseIllegal w).tOk = s.tOk := rfl
@[simp] theorem State.raiseIllegal_hOk (s : State) (w : Word) :
    (s.raiseIllegal w).hOk = s.hOk := rfl
@[simp] theorem State.raiseIllegal_tVal (s : State) (w : Word) :
    (s.raiseIllegal w).tVal = s.tVal := rfl
@[simp] theorem State.raiseIllegal_hVal (s : State) (w : Word) :
    (s.raiseIllegal w).hVal = s.hVal := rfl
@[simp] theorem State.raiseIllegal_sv (s : State) (w : Word) :
    (s.raiseIllegal w).sv = s.sv := rfl
@[simp] theorem State.raiseIllegal_stOk (s : State) (w : Word) :
    (s.raiseIllegal w).stOk = s.stOk := rfl
@[simp] theorem State.raiseIllegal_stWord (s : State) (w : Word) :
    (s.raiseIllegal w).stWord = s.stWord := rfl
@[simp] theorem State.raiseIllegal_err (s : State) (w : Word) :
    (s.raiseIllegal w).err = true := rfl
@[simp] theorem State.raiseIllegal_input (s : State) (w : Word) :
    (s.raiseIllegal w).input = s.input := rfl

@[simp] theorem State.applyReset_acc (s : State) :
    (s.applyReset).acc = Config.accReset := rfl
@[simp] theorem State.applyReset_mv (s : State) :
    (s.applyReset).mv = false := rfl
@[simp] theorem State.applyReset_tOk (s : State) :
    (s.applyReset).tOk = none := rfl
@[simp] theorem State.applyReset_hOk (s : State) :
    (s.applyReset).hOk = none := rfl
@[simp] theorem State.applyReset_tVal (s : State) :
    (s.applyReset).tVal = none := rfl
@[simp] theorem State.applyReset_hVal (s : State) :
    (s.applyReset).hVal = none := rfl
@[simp] theorem State.applyReset_sv (s : State) :
    (s.applyReset).sv = false := rfl
@[simp] theorem State.applyReset_stOk (s : State) :
    (s.applyReset).stOk = none := rfl
@[simp] theorem State.applyReset_stWord (s : State) :
    (s.applyReset).stWord = none := rfl
@[simp] theorem State.applyReset_err (s : State) :
    (s.applyReset).err = false := rfl
@[simp] theorem State.applyReset_input (s : State) :
    (s.applyReset).input = s.input := rfl

@[simp] theorem State.withInput_acc (s : State) (events : List HostEvent) :
    (s.withInput events).acc = s.acc := rfl
@[simp] theorem State.withInput_mv (s : State) (events : List HostEvent) :
    (s.withInput events).mv = s.mv := rfl
@[simp] theorem State.withInput_tOk (s : State) (events : List HostEvent) :
    (s.withInput events).tOk = s.tOk := rfl
@[simp] theorem State.withInput_hOk (s : State) (events : List HostEvent) :
    (s.withInput events).hOk = s.hOk := rfl
@[simp] theorem State.withInput_tVal (s : State) (events : List HostEvent) :
    (s.withInput events).tVal = s.tVal := rfl
@[simp] theorem State.withInput_hVal (s : State) (events : List HostEvent) :
    (s.withInput events).hVal = s.hVal := rfl
@[simp] theorem State.withInput_sv (s : State) (events : List HostEvent) :
    (s.withInput events).sv = s.sv := rfl
@[simp] theorem State.withInput_stOk (s : State) (events : List HostEvent) :
    (s.withInput events).stOk = s.stOk := rfl
@[simp] theorem State.withInput_stWord (s : State) (events : List HostEvent) :
    (s.withInput events).stWord = s.stWord := rfl
@[simp] theorem State.withInput_err (s : State) (events : List HostEvent) :
    (s.withInput events).err = s.err := rfl
@[simp] theorem State.withInput_input (s : State) (events : List HostEvent) :
    (s.withInput events).input = events := rfl

@[simp] theorem State.reset_acc : State.reset.acc = Config.accReset := rfl
@[simp] theorem State.reset_mv : State.reset.mv = false := rfl
@[simp] theorem State.reset_tOk : State.reset.tOk = none := rfl
@[simp] theorem State.reset_hOk : State.reset.hOk = none := rfl
@[simp] theorem State.reset_tVal : State.reset.tVal = none := rfl
@[simp] theorem State.reset_hVal : State.reset.hVal = none := rfl
@[simp] theorem State.reset_sv : State.reset.sv = false := rfl
@[simp] theorem State.reset_stOk : State.reset.stOk = none := rfl
@[simp] theorem State.reset_stWord : State.reset.stWord = none := rfl
@[simp] theorem State.reset_err : State.reset.err = false := rfl
@[simp] theorem State.reset_input : State.reset.input = [] := rfl

@[simp] theorem State.withInput_withInput (s : State) (a b : List HostEvent) :
    (s.withInput a).withInput b = s.withInput b := rfl

@[simp] theorem State.withInput_input_self (s : State) : s.withInput s.input = s := rfl

/-- The writes of the registers and of the input commute: no register write looks at the input. -/
theorem State.writeAcc_withInput (s : State) (v : Byte) (a : List HostEvent) :
    (s.withInput a).writeAcc v = (s.writeAcc v).withInput a := rfl

/-- Reset forgets everything but what the host still has to send. -/
theorem State.applyReset_eq_iff (s t : State) : s.applyReset = t.applyReset ↔ s.input = t.input := by
  constructor
  · intro h
    simpa using congrArg State.input h
  · intro h
    simp [State.applyReset, h]

/-- Two states with equal fields are equal. -/
theorem State.ext_fields {s t : State} (hAcc : s.acc = t.acc) (hMv : s.mv = t.mv) (hTOk : s.tOk = t.tOk)
    (hHOk : s.hOk = t.hOk) (hTVal : s.tVal = t.tVal) (hHVal : s.hVal = t.hVal) (hSv : s.sv = t.sv)
    (hStOk : s.stOk = t.stOk) (hStWord : s.stWord = t.stWord) (hErr : s.err = t.err)
    (hInput : s.input = t.input) : s = t := by
  cases s
  cases t
  simp_all

end Sys2Proof.Machine
end

