-- ==== Sys2Proof/Laws/Ops.lean ====
section
/-! SUPPORT. What taking an event and running an operation can do, said once. -/

namespace Sys2Proof.Machine

/-- Everything `take` can answer, with the event it took. -/
theorem State.take_cases (s : State) :
    (s.input = [] ∧ s.take = .idle) ∨
    (∃ rest, s.input = .reset :: rest ∧ s.take = .reset (s.withInput rest)) ∨
    (∃ w rest i, s.input = .word w :: rest ∧ decode w = .legal i ∧ s.take = .legal i (s.withInput rest)) ∨
    (∃ w rest why, s.input = .word w :: rest ∧ decode w = .illegal why ∧
      s.take = .illegal w (s.withInput rest)) := by
  unfold State.take
  rcases hin : s.input with _ | ⟨e, rest⟩
  · exact .inl ⟨rfl, rfl⟩
  · cases e with
    | reset => exact .inr (.inl ⟨rest, rfl, rfl⟩)
    | word w =>
      rcases hdec : decode w with i | why
      · exact .inr (.inr (.inl ⟨w, rest, i, rfl, hdec, by simp [hdec]⟩))
      · exact .inr (.inr (.inr ⟨w, rest, why, rfl, hdec, by simp [hdec]⟩))

/-- `take` on a legal word. -/
theorem State.take_legal {s : State} {w : Word} {rest : List HostEvent} {i : Instr}
    (hin : s.input = .word w :: rest) (hdec : decode w = .legal i) :
    s.take = .legal i (s.withInput rest) := by
  simp [State.take, hin, hdec]

/-- `take` on an illegal word. -/
theorem State.take_illegal {s : State} {w : Word} {rest : List HostEvent} {why : IllegalReason}
    (hin : s.input = .word w :: rest) (hdec : decode w = .illegal why) :
    s.take = .illegal w (s.withInput rest) := by
  simp [State.take, hin, hdec]

/-- `take` on a reset event. -/
theorem State.take_reset {s : State} {rest : List HostEvent} (hin : s.input = .reset :: rest) :
    s.take = .reset (s.withInput rest) := by
  simp [State.take, hin]

/-- `take` with nothing issued. -/
theorem State.take_idle {s : State} (hin : s.input = []) : s.take = .idle := by
  simp [State.take, hin]

/-- An operation answers a next state that is the old one, one with `ACC` written, one with a measurement
written, or one with a status written. -/
theorem exec_cases {i : Instr} {s t : State} (h : exec i s = .next t) :
    t = s ∨ (∃ v, t = s.writeAcc v) ∨
    (∃ tOk tRaw hOk hRaw, t = s.writeMeasurement tOk (gated tOk (temp tRaw)) hOk (gated hOk (hum hRaw))) ∨
    (∃ ok w, t = s.writeStatus ok w) := by
  cases i with
  | nop =>
    cases h
    exact .inl rfl
  | crcinit =>
    cases h
    exact .inr (.inl ⟨_, rfl⟩)
  | crcbyte d =>
    cases h
    exact .inr (.inl ⟨_, rfl⟩)
  | mdec b0 b1 b2 b3 b4 b5 =>
    cases h
    exact .inr (.inr (.inl ⟨_, _, _, _, rfl⟩))
  | sdec b0 b1 b2 =>
    cases h
    exact .inr (.inr (.inr ⟨_, _, rfl⟩))

/-- No operation writes what the host has yet to send or `ERR`. -/
theorem exec_keeps_input_err {i : Instr} {s t : State} (h : exec i s = .next t) :
    t.input = s.input ∧ t.err = s.err := by
  rcases exec_cases h with rfl | ⟨v, rfl⟩ | ⟨a, b, c, d, rfl⟩ | ⟨ok, w, rfl⟩ <;> simp

/-- Everything a step can do: the state it starts the operation in is the old one less the event. -/
theorem step_cases {s t : State} (h : step s = .next t) :
    (s.input = [] ∧ t = s) ∨
    (∃ rest, s.input = .reset :: rest ∧ t = (s.withInput rest).applyReset) ∨
    (∃ w rest i, s.input = .word w :: rest ∧ decode w = .legal i ∧ exec i (s.withInput rest) = .next t) ∨
    (∃ w rest why, s.input = .word w :: rest ∧ decode w = .illegal why ∧
      t = (s.withInput rest).raiseIllegal w) := by
  unfold step at h
  rcases s.take_cases with ⟨hin, htake⟩ | ⟨rest, hin, htake⟩ | ⟨w, rest, i, hin, hdec, htake⟩ |
    ⟨w, rest, why, hin, hdec, htake⟩ <;> rw [htake] at h
  · cases h
    exact .inl ⟨hin, rfl⟩
  · cases h
    exact .inr (.inl ⟨rest, hin, rfl⟩)
  · exact .inr (.inr (.inl ⟨w, rest, i, hin, hdec, h⟩))
  · cases h
    exact .inr (.inr (.inr ⟨w, rest, why, hin, hdec, rfl⟩))

/-- The bytes an operation's checks and values are made of. -/
@[simp] theorem rawTemperature_eq (b0 b1 : Byte) : rawTemperature b0 b1 = b0 ++ b1 := rfl

@[simp] theorem rawHumidity_eq (b3 b4 : Byte) : rawHumidity b3 b4 = b3 ++ b4 := rfl

@[simp] theorem statusWord_eq (b0 b1 : Byte) : statusWord b0 b1 = b0 ++ b1 := rfl

@[simp] theorem gated_true (v : F64) : gated true v = v := rfl

@[simp] theorem gated_false (v : F64) : gated false v = Config.nanBits := rfl

end Sys2Proof.Machine
end

