-- ==== Sys2Proof/Laws/Outputs.lean ====
section
/-! SUPPORT. What the outputs show, by the state of their qualifying registers. -/

namespace Sys2Proof.Machine

theorem stState_present_iff (s : State) : stState s = .present ↔ s.sv = true ∧ s.stOk = some true := by
  unfold stState
  split
  · split <;> simp_all
  · simp_all

theorem stState_empty_iff (s : State) : stState s = .empty ↔ s.sv = false := by
  unfold stState
  split
  · split <;> simp_all
  · simp_all

theorem outStatus_of_present {s : State} (h : stState s = .present) : outStatus s = s.stWord := by
  simp [outStatus, h]

theorem outStatus_of_not_present {s : State} (h : stState s ≠ .present) : outStatus s = none := by
  simp [outStatus, h]

theorem outPred_of_none {s : State} (p : Predicate) (h : outStatus s = none) : outPred p s = .unknown := by
  simp [outPred, h]

theorem outPred_of_some {s : State} {w : Half} (p : Predicate) (h : outStatus s = some w) :
    outPred p s = if w.getLsbD p.bit then .isTrue else .isFalse := by
  simp [outPred, h]

/-- `out_meas` shows something exactly when `MV` = 1 and every result register of MDEC holds a value. -/
theorem outMeas_eq_some_iff (s : State) (m : MeasOut) :
    outMeas s = some m ↔
      s.mv = true ∧ s.tOk = some m.tOk ∧ s.tVal = some m.tVal ∧ s.hOk = some m.hOk ∧ s.hVal = some m.hVal := by
  obtain ⟨mtOk, mtVal, mhOk, mhVal⟩ := m
  obtain ⟨acc, mv, tOk, hOk, tVal, hVal, sv, stOk, stWord, err, input⟩ := s
  cases mv <;> cases tOk <;> cases tVal <;> cases hOk <;> cases hVal <;> simp [outMeas]

/-- A predicate's known line is 0 exactly for UNKNOWN (42_status_extractor.md R164). -/
theorem pinPredKnown_eq_false_iff (p : Predicate) (s : State) :
    pinPredKnown p s = false ↔ outPred p s = .unknown := by
  cases h : outPred p s <;> simp [pinPredKnown, h]

/-- All that a predicate's line can carry, by its output. -/
theorem pinPred_eq (p : Predicate) (s : State) (b : Bool) :
    pinPred p s = some b ↔ outPred p s = if b then .isTrue else .isFalse := by
  cases h : outPred p s <;> cases b <;> simp [pinPred, h]

@[simp] theorem readResult_some {α : Type} (r : ResultRegister) (v : α) : readResult r (some v) = .ok v := rfl

@[simp] theorem readResult_none {α : Type} (r : ResultRegister) :
    readResult r (none : Option α) = .error (.unspecifiedRead r) := rfl

@[simp] theorem lineLevel_some {α : Type} (v idle : α) : lineLevel (some v) idle = v := rfl

@[simp] theorem lineLevel_none {α : Type} (idle : α) : lineLevel none idle = idle := rfl

@[simp] theorem qualified_true {α : Type} (held : Option α) : qualified true held = held := rfl

@[simp] theorem qualified_false {α : Type} (held : Option α) : qualified false held = none := rfl

end Sys2Proof.Machine
end

