-- ==== Sys2Proof/Laws/PerInstr.lean ====
section
/-! SUPPORT. Statements made per operation: the family `EncodedRow` says of an operation, as syntax, that
its word matches the row of the opcode table (30_encoding.md R84) that carries its mnemonic. -/

namespace Sys2Proof.Laws.EncodedRow

/-- The operation's word is accepted by a row of the table with the operation's mnemonic. -/
def Statement (i : Instr) : Prop :=
  ∃ r ∈ opcodeRows, r.mnemonic = i.mnemonic ∧ r.accepts (encode i) = true

theorem nop : Statement .nop :=
  ⟨⟨"NOP", 0x0000000000000000, 0xFFFFFFFFFFFFFFFF⟩, by simp [opcodeRows], rfl, by decide⟩

theorem crcinit : Statement .crcinit :=
  ⟨⟨"CRCINIT", 0x1000000000000000, 0xFFFFFFFFFFFFFFFF⟩, by simp [opcodeRows], rfl, by decide⟩

theorem crcbyte (d : Byte) : Statement (.crcbyte d) := by
  refine ⟨⟨"CRCBYTE", 0x2000000000000000, 0xFFFFFFFFFFFFFF00⟩, by simp [opcodeRows], rfl, ?_⟩
  simp only [OpcodeRow.accepts, beq_iff_eq]
  ext i hi
  simp only [encode, opWord, BitVec.getElem_and, BitVec.getElem_append]
  interval_cases i <;> simp

theorem mdec (b0 b1 b2 b3 b4 b5 : Byte) : Statement (.mdec b0 b1 b2 b3 b4 b5) := by
  refine ⟨⟨"MDEC", 0x3000000000000000, 0xFFFF000000000000⟩, by simp [opcodeRows], rfl, ?_⟩
  simp only [OpcodeRow.accepts, beq_iff_eq]
  ext i hi
  simp only [encode, opWord, BitVec.getElem_and, BitVec.getElem_append]
  interval_cases i <;> simp

theorem sdec (b0 b1 b2 : Byte) : Statement (.sdec b0 b1 b2) := by
  refine ⟨⟨"SDEC", 0x4000000000000000, 0xFFFFFFFFFF000000⟩, by simp [opcodeRows], rfl, ?_⟩
  simp only [OpcodeRow.accepts, beq_iff_eq]
  ext i hi
  simp only [encode, opWord, BitVec.getElem_and, BitVec.getElem_append]
  interval_cases i <;> simp

end Sys2Proof.Laws.EncodedRow
end

