-- ==== Sys2Proof/Tests/Slice0.lean ====
section
/-! SUPPORT. Tests of one step each, their results taken from 95_test_vectors.md and the rules' own
examples, and the witnesses: for each obligation with hypotheses, values that meet them together. -/

set_option maxRecDepth 20000

namespace Sys2Proof.Tests

open Sys2Proof.Machine Sys2Proof.Safety

/-- The next state of an outcome. -/
def nextOf (o : Host.Outcome State Fault Refusal) : Option State :=
  match o with
  | .next s => some s
  | .fault _ => none
  | .refused _ => none

/-- The state after reset with one word issued. -/
def given (w : Word) : State := State.reset.issueNext w

/-- A state with a measurement: the end of 95_test_vectors.md P2's first row. -/
def measured : State :=
  { State.reset with mv := true, tOk := some true, tVal := some 0x403632E632E632E8,
                     hOk := some true, hVal := some 0x4044000000000000 }

/-- A state with a status word: the end of 95_test_vectors.md P3's first row. -/
def statusRead : State := { State.reset with sv := true, stOk := some true, stWord := some 0x2000 }

-- WELL-FORMED LINES: one ill-formed line for each check (30_encoding.md R86, R87)

theorem test_wf_crcbyte_out_of_range : (AsmLine.crcbyte 256).wellFormed = false := by decide
theorem test_wf_mdec_out_of_range : (AsmLine.mdec 0 0 0 0 0 256).wellFormed = false := by decide
theorem test_wf_sdec_out_of_range : (AsmLine.sdec 0 256 0).wellFormed = false := by decide
theorem test_wf_word_out_of_range : (AsmLine.rawWord (2 ^ 64)).wellFormed = false := by decide
theorem test_wf_crc8_out_of_range : (AsmLine.crcOf [0, 300]).wellFormed = false := by decide
theorem test_wf_mframe_out_of_range : (AsmLine.mframe 0 65536).wellFormed = false := by decide
theorem test_wf_sframe_out_of_range : (AsmLine.sframe 65536).wellFormed = false := by decide
theorem test_wf_bounds : (AsmLine.mdec 255 0 255 0 255 255).wellFormed = true := by decide
theorem test_wf_every_operation : (Instr.sdec 0xFF 0 0).wellFormed = true := by decide

-- DECODING: words written out from 30_encoding.md R81 to R84 (op, rsv, opnd)

theorem test_decode_nop : decode 0x0000000000000000 = .legal .nop := by decide
theorem test_decode_crcinit :
    decode 0b0001000000000000000000000000000000000000000000000000000000000000 = .legal .crcinit := by decide
theorem test_decode_crcbyte :
    decode 0b0010000000000000000000000000000000000000000000000000000010111110 = .legal (.crcbyte 0xBE) := by decide
theorem test_decode_mdec :
    decode 0b0011000000000000011000100100110101111100011001100110011110010011
      = .legal (.mdec 0x62 0x4D 0x7C 0x66 0x67 0x93) := by decide
theorem test_decode_sdec :
    decode 0b0100000000000000000000000000000000000000001000000000000101011101
      = .legal (.sdec 0x20 0x01 0x5D) := by decide
theorem test_decode_rsv_set : decode 0x3FFF000000000000 = .illegal .reservedBits := by decide
theorem test_decode_rsv_bit_48 : decode 0x0001000000000000 = .illegal .reservedBits := by decide
theorem test_decode_nop_operand : decode 0x0000000000000001 = .illegal .unusedOperandBits := by decide
theorem test_decode_crcinit_operand : decode 0x1000000000000001 = .illegal .unusedOperandBits := by decide
theorem test_decode_crcbyte_bit_8 : decode 0x20000000000001BE = .illegal .unusedOperandBits := by decide
theorem test_decode_sdec_bit_24 : decode 0x4000000001000000 = .illegal .unusedOperandBits := by decide
theorem test_decode_op_5 : decode 0x5000000000000000 = .illegal .unassignedOpcode := by decide
theorem test_decode_op_f : decode 0xF000000000000000 = .illegal .unassignedOpcode := by decide
theorem test_encode_mdec : encode (.mdec 0x62 0x4D 0x7C 0x66 0x66 0x93) = 0x3000624D7C666693 := by decide
theorem test_encode_sdec : encode (.sdec 0x20 0x00 0x5D) = 0x400000000020005D := by decide
theorem test_table_word_shorter : decodeTableWord 8 0x1BE = none ∧ decodeTableWord 64 0x20000000000000BE = some (.crcbyte 0xBE) := by
  decide

-- CRC: 95_test_vectors.md section 2

theorem test_crc8_empty : crc8 [] = 0xFF := by decide
theorem test_crc8_be_ef : crc8 [0xBE, 0xEF] = 0x92 := by decide
theorem test_crc8_check_string : crc8 [0x31, 0x32, 0x33, 0x34, 0x35, 0x36, 0x37, 0x38, 0x39] = 0xF7 := by decide
theorem test_crc_trace : (crcShift 0x9D, crcShift 0xB0, crcShift 0xA2) = (0x0B, 0x51, 0x75) := by decide
theorem test_wide_crc : wideCrc [0x62, 0x4D] = 0x7C := by decide
theorem test_crcinit_step :
    nextOf (step { given 0x1000000000000000 with acc := 0x92 }) = some State.reset := by decide
theorem test_crcbyte_step : nextOf (step (given 0x20000000000000BE)) = some { State.reset with acc := 0x0C } := by decide
theorem test_crcbyte_second :
    nextOf (exec (.crcbyte 0xEF) { State.reset with acc := 0x0C }) = some { State.reset with acc := 0x92 } := by decide

-- MEASUREMENT DECODER: 95_test_vectors.md section 3

theorem test_temp_624d : temp 0x624D = 0x403632E632E632E8 := by decide
theorem test_temp_near_zero : (temp 0x41D3, temp 0x41D4) = (0xBF62C012C012C000, 0x3F390019001A0000) := by decide
theorem test_hum_0001 : hum 0x0001 = 0x3F59001900190019 := by decide
theorem test_quotient_370 : fdiv (fmul (f64 175) (f64 370)) (f64 65535) = 0x3FEF9DDF9DDF9DE0 := by decide
theorem test_mdec_step : nextOf (step (given 0x3000624D7C666693)) = some measured := by decide +kernel
theorem test_mdec_humidity_corrupted :
    nextOf (exec (.mdec 0x62 0x4D 0x7C 0x66 0x66 0x00) statusRead) =
      some { statusRead with mv := true, tOk := some true, tVal := some 0x403632E632E632E8,
                             hOk := some false, hVal := some 0x7FF8000000000000 } := by decide +kernel

-- STATUS EXTRACTOR: 95_test_vectors.md section 4

theorem test_sdec_step : nextOf (step (given 0x400000000020005D)) = some statusRead := by decide
theorem test_sdec_mismatch_forgets :
    nextOf (exec (.sdec 0x20 0x00 0x5C) statusRead) =
      some { State.reset with sv := true, stOk := some false, stWord := none } := by decide
theorem test_predicates_8010 :
    (outPred .resetDetected { statusRead with stWord := some 0x8010 },
     outPred .alertPending { statusRead with stWord := some 0x8010 },
     outPred .heaterActive { statusRead with stWord := some 0x8010 }) = (.isTrue, .isTrue, .isFalse) := by decide
theorem test_predicates_empty : outPred .heaterActive State.reset = .unknown := by decide
theorem test_pins_predicates :
    (pinPredKnown .heaterActive statusRead, pinPred .heaterActive statusRead, pinPred .alertPending statusRead,
     pinPredKnown .heaterActive State.reset) = (true, some true, some false, false) := by decide
theorem test_line_levels :
    (levelTVal 0x123 State.reset, levelTVal 0x123 measured, levelPred .heaterActive false State.reset,
     levelPred .heaterActive false statusRead) = (0x123, 0x403632E632E632E8, false, true) := by decide
theorem test_pins_st_state :
    (pinStState State.reset, pinStState { statusRead with stOk := some false, stWord := none }, pinStState statusRead)
      = (0b00, 0b01, 0b10) := by decide

-- CONTROL, ILLEGAL WORDS, RESET: 95_test_vectors.md section 5 and P4

theorem test_nop_step : nextOf (step { given 0 with acc := 0x5A }) = some { State.reset with acc := 0x5A } := by decide
theorem test_illegal_step : nextOf (step (given 0x5000000000000000)) = some { State.reset with err := true } := by decide
theorem test_after_illegal :
    nextOf (exec (.crcbyte 0x00) { State.reset with err := true }) =
      some { State.reset with acc := 0xAC, err := true } := by decide
theorem test_reset_event :
    nextOf (step { measured with err := true, input := [.reset, .word 0] }) =
      some { State.reset with input := [.word 0] } := by decide
theorem test_direct_read_faults :
    (match readResult .tVal State.reset.tVal with
      | .error f => some f
      | .ok _ => none) = some (.unspecifiedRead .tVal) := by decide

-- BINARY64: IEEE-754's own corners

theorem test_rne_tie_to_even : (rne64 (2 ^ 53 + 1) 1, rne64 (2 ^ 53 + 3) 1) = (f64 (2 ^ 53), f64 (2 ^ 53 + 4)) := by decide
theorem test_signed_zeros :
    (fsub 0x8000000000000000 0, fsub 0 0, fmul 0x8000000000000000 (f64 3)) = (0x8000000000000000, 0, 0x8000000000000000) := by decide
theorem test_division_by_zero : fdiv (f64 1) 0x8000000000000000 = 0xFFF0000000000000 := by decide

-- ASSEMBLER AND HOST CONTEXT

theorem test_assemble_text :
    assembleText " mdec 0x62, 0x4D,0x7C, 102, 0x66, 0x93 ; a frame".toList = some [0x3000624D7C666693] := by decide
theorem test_assemble_pseudo : assembleText "mframe 0x0000, 0xFFFF".toList = some [0x3000000081FFFFAC] := by decide
theorem test_assemble_separator_words :
    assembleText ".word 0x5000_0000_0000_0000".toList = some [0x5000000000000000] ∧
    assembleText ".word 0x2000_0000_0000_01BE".toList = some [0x20000000000001BE] := by decide
theorem test_assemble_misplaced_separators :
    ["0x_12", "12_", "_12", "1__2", "_", "", "0x", "0xG", "1A"].map (fun t => parseNumber t.toList) =
      [none, none, none, none, none, none, none, none, none] := by decide
theorem test_assemble_out_of_range : assembleText "crcbyte 256".toList = none := by decide
theorem test_commands_are_closed : sensorCommands.length = 11 ∧ sensorCommands.Nodup := by decide
theorem test_command_round_trip : sensorCommands.map (fun c => commandOf c.opcode) = sensorCommands.map some := by decide
theorem test_status_reading_kept :
    statusReading 0x44 0x05 true (some [0x20, 0x00, 0x5D]) =
      [.write 0x44 0xF3 0x2D true, .wait 15, .readBlock 0x44 0x05 3 (some [0x20, 0x00, 0x5D]),
       .issue 0x400000000020005D, .readOutputs] := by decide
theorem test_failed_write_ends_the_reading :
    measurementReading 0x44 false (some [0, 0, 0, 0, 0, 0]) = [.write 0x44 0x24 0x00 false] := by decide
theorem test_driver_states :
    ((HostPhase.start defaultAddress).driverState,
     ((HostPhase.start defaultAddress).allowsAll powerOn).map HostPhase.driverState,
     ((HostPhase.start defaultAddress).allowsAll
      (powerOn ++ [sendCommand defaultAddress (.measureHighRep false) true])).map HostPhase.driverState)
      = (some .uninitialized, some (some .ready), some (some .awaitingConversion)) := by decide
theorem test_second_command_too_early :
    ((HostPhase.start defaultAddress).allowsAll
      (powerOn ++ [sendCommand defaultAddress (.measureHighRep false) true,
                   sendCommand defaultAddress .readStatus true])).isNone = true := by
  decide
-- the model's choices of log entries 23, 24 and 25
theorem test_after_failed_transport :
    ((HostPhase.start 0x44).allowsAll
      (firstReading 0x44 false none ++ measurementReading 0x44 true none ++ measurementReading 0x44 true none)).isSome
      = true := by decide
theorem test_other_address_interleaves :
    ((HostPhase.start 0x44).allowsAll
      (powerOn ++ [sendCommand 0x44 (.measureHighRep false) true, .write 0x45 0x00 0x00 true,
                   .readBlock 0x45 0x07 1 none, .wait 15, .readBlock 0x44 0 6 none])).isSome = true := by decide
theorem test_unasked_read :
    ((HostPhase.start 0x44).allowsAll (powerOn ++ [.readBlock 0x44 0 6 none])).isNone = true := by decide

-- WITNESSES: each obligation's hypotheses, met together (the obligation's name after witness_)

theorem witness_EncodeInvertsDecode : decode (0xFFFF : Word) = .illegal .unusedOperandBits ∧
    decode 0x20000000000000FF = .legal (.crcbyte 0xFF) := by decide
theorem witness_LegalWordsAreTheTableRows :
    (opcodeRows.map fun r => r.accepts r.matchBits) = [true, true, true, true, true] := by decide
theorem witness_OperandBytesComeFromTheirBits :
    decode 0x3000FFFFFFFFFFFF = .legal (.mdec 0xFF 0xFF 0xFF 0xFF 0xFF 0xFF) ∧
    decode 0x4000000000FFFFFF = .legal (.sdec 0xFF 0xFF 0xFF) ∧ decode 0x2000000000000000 = .legal (.crcbyte 0) := by decide
theorem witness_StepRunsTheDecodedWord :
    (given 0x1000000000000000).input = .word 0x1000000000000000 :: [] ∧ decode 0x1000000000000000 = .legal .crcinit := by
  decide
theorem witness_StepWithNothingIssuedChangesNothing : State.reset.input = [] := by decide
theorem witness_CrcinitLoadsTheInitialValue : State.reset.acc = 0xFF := by decide
theorem witness_CrcbyteFeedsOneByte :
    (0x20000000000000FF : Word) &&& 0xFFFFFFFFFFFFFF00 = 0x2000000000000000 ∧ State.reset.acc = 0xFF ∧
    (given 0x2000000000000100).input = .word 0x2000000000000100 :: [] ∧
    (0x2000000000000100 : Word).extractLsb 63 60 = 2 ∧ (0x2000000000000100 : Word).extractLsb 47 8 ≠ 0 := by decide
theorem witness_MdecDecodesBothFields :
    (0x3000FFFFFFFFFFFF : Word) &&& 0xFFFF000000000000 = 0x3000000000000000 := by decide
theorem witness_MdecFieldsAreIndependent :
    (nextOf (exec (.mdec 0x62 0x4D 0x7C 0x66 0x66 0x93) State.reset)).isSome = true ∧
    (nextOf (exec (.mdec 0x62 0x4D 0x7C 0 0 0) statusRead)).isSome = true := by decide
theorem witness_ChecksumMismatchRecordsNothingOfTheField :
    crc8 [0x00, 0x00] ≠ 0x00 ∧ crc8 [0xFF, 0xFF] ≠ 0x00 := by decide
theorem witness_RoundingIsToNearestTiesToEven :
    isFinite (rne64 (-1) 3) = true ∧ isFinite (rne64 (2 ^ 53 + 1) 1) = true ∧ isFinite 0x4340000000000001 = true ∧
    |(2 ^ 53 + 1) * (oneUnits : Int) - units (rne64 (2 ^ 53 + 1) 1)| =
      |(2 ^ 53 + 1) * (oneUnits : Int) - units 0x4340000000000001| := by decide +kernel
theorem witness_FloatOperationsRoundTheExactResult :
    isFinite (f64 175) = true ∧ isFinite (f64 3) = true ∧ units (f64 175) * units (f64 3) ≠ 0 ∧
    0 < units (f64 3) ∧ units 0xBFF0000000000000 < 0 ∧ units (f64 175) - units (f64 3) ≠ 0 := by decide
theorem witness_TransferFunctionsStrictlyIncrease : (0x0000 : Half).toNat < (0xFFFF : Half).toNat := by decide
theorem witness_SdecKeepsTheWordOnlyWhenItsCrcMatches :
    (0x4000000000FFFFFF : Word) &&& 0xFFFFFFFFFF000000 = 0x4000000000000000 ∧
    crc8 [0x00, 0x00] = 0x81 ∧ crc8 [0xFF, 0xFF] = 0xAC := by decide
theorem witness_AMismatchingStatusShowsNothing :
    crc8 [0x20, 0x00] ≠ 0x5C ∧ crc8 [0x00, 0x00] ≠ 0x00 ∧ stState State.reset ≠ .present := by decide
theorem witness_PredicatesAreMaskTests :
    stState statusRead = .present ∧ statusRead.stWord = some 0x2000 ∧ stState State.reset ≠ .present := by decide
theorem witness_NopChangesNothing : (0x0000000000000001 : Word).extractLsb 63 60 = 0 ∧ (0x0000000000000001 : Word) ≠ 0 := by
  decide
theorem witness_AnIllegalWordSetsErrAndNothingElse :
    (given 0x5000000000000000).input = .word 0x5000000000000000 :: [] ∧
    5 ≤ ((0x5000000000000000 : Word).extractLsb 63 60).toNat ∧ (0x3FFF000000000000 : Word).extractLsb 59 48 ≠ 0 ∧
    (0x0000000000000001 : Word).extractLsb 47 0 ≠ 0 ∧ (0x1000000000000001 : Word).extractLsb 63 60 = 1 ∧
    (0x4000000001000000 : Word).extractLsb 63 60 = 4 ∧ (0x4000000001000000 : Word).extractLsb 47 24 ≠ 0 ∧
    (0x3000000000000000 : Word).extractLsb 63 60 = 3 ∧ (0x3000000000000000 : Word).extractLsb 59 48 = 0 := by decide
theorem witness_ErrIsStickyAndNoOperationReadsIt :
    (given 0xF000000000000000).input = .word 0xF000000000000000 :: [] ∧
    decode 0xF000000000000000 = .illegal .unassignedOpcode ∧
    nextOf (step (given 0xF000000000000000)) = some { State.reset with err := true } ∧
    nextOf (step { State.reset with err := true, input := [.reset] }) = some State.reset := by decide
theorem witness_DataLinesShowValuesExactlyWhenQualified :
    stateInv measured = true ∧ measured.mv = true ∧ stateInv statusRead = true ∧ stState statusRead = .present := by decide +kernel
theorem witness_DataLinesCarryAnyValueWhileUnqualified :
    pinMeasValid State.reset = false ∧ stState State.reset ≠ .present ∧
    pinPredKnown .alertPending State.reset = false ∧ stateInv measured = true ∧ pinMeasValid measured = true ∧
    stateInv statusRead = true ∧ stState statusRead = .present ∧ pinPredKnown .alertPending statusRead = true := by
  decide +kernel
theorem witness_DirectReadsFaultExactlyWithoutAValue :
    stateInv State.reset = true ∧ State.reset.sv = false ∧ stateInv statusRead = true ∧ statusRead.sv = true ∧
    outStatus statusRead = some 0x2000 ∧
    stState { statusRead with stOk := some false, stWord := none } = .absent ∧
    stateInv { statusRead with stOk := some false, stWord := none } = true ∧
    stateInv measured = true ∧ (outMeas measured).isSome = true ∧ crc8 [0x20, 0x00] ≠ 0x5C := by decide +kernel
theorem witness_OutputsFollowTheirRegisters :
    State.reset.sv = false ∧ statusRead.sv = true ∧ statusRead.stOk = some true ∧
    ({ statusRead with stOk := some false } : State).stOk = some false := by decide
theorem witness_FrameOfEachOperation :
    nextOf (exec .nop statusRead) = some statusRead ∧ nextOf (exec .crcinit statusRead) = some statusRead ∧
    (nextOf (exec (.crcbyte 1) measured)).isSome = true ∧ (nextOf (exec (.mdec 1 2 3 4 5 6) measured)).isSome = true ∧
    (nextOf (exec (.sdec 1 2 3) measured)).isSome = true := by decide
theorem witness_ResetIsTheOnlyWayBack :
    ({ measured with input := [.word 0, .reset] } : State).input = .word 0 :: .reset :: [] ∧
    nextOf (step { measured with input := [.word 0, .reset] }) = some { measured with input := [.reset] } ∧
    nextOf (step { measured with input := [.reset] }) = some State.reset ∧ measured.mv = true := by decide
theorem witness_ValidBitsAreSetByTheirDecodes : State.reset.mv = false ∧ stateInv State.reset = true ∧
    nextOf (step { statusRead with input := [.reset] }) = some State.reset ∧ statusRead.sv = true := by decide
theorem witness_DecodesNeitherReadNorWriteTheAccumulator :
    (nextOf (exec (.mdec 0x62 0x4D 0x00 0x66 0x66 0x00) { statusRead with acc := 0x93 })).isSome = true ∧
    (nextOf (exec (.sdec 0x20 0x00 0x5D) { measured with acc := 0x93 })).isSome = true := by decide
theorem witness_EveryStepKeepsTheInvariant :
    stateInv { measured with input := [.word 0x400000000020005D] } = true ∧
    (nextOf (step { measured with input := [.word 0x400000000020005D] })).isSome = true := by decide +kernel
theorem witness_AFieldIsTheSentinelExactlyWhenItsFlagIsClear :
    stateInv measured = true ∧ outMeas measured = some ⟨true, 0x403632E632E632E8, true, 0x4044000000000000⟩ := by decide +kernel
theorem witness_RepeatingAnIdempotentOperationChangesNothing :
    nextOf (exec .crcinit State.reset) = some State.reset ∧
    (nextOf (exec (.mdec 0 0 0 0 0 0) State.reset)).isSome = true ∧
    (nextOf (exec (.sdec 0 0 0) State.reset)).isSome = true := by decide
theorem witness_AssembledFramesAlwaysMatch : (∀ b ∈ [0xBE, 0xEF], b < 256) ∧
    assemble (.crcOf [0xBE, 0xEF]) = some [0x1000000000000000, 0x20000000000000BE, 0x20000000000000EF] := by decide
theorem witness_OnlyRawWordsSpellIllegalWords :
    assemble (.sframe 0x8010) = some [0x40000000008010E1] ∧ AsmLine.sframe 0x8010 ≠ .rawWord 0 := by decide
theorem witness_AHostReadingIssuesItsFrameOnce :
    (false = false ∨ (some [] : Option (List Byte)) = none) ∧ (true = false ∨ (none : Option (List Byte)) = none) ∧
    sfpEvents (reading (.measureLowRep true) 0x44 0 true (some [0xFF, 0xFF, 0xAC, 0, 0, 0x81])) =
      [.word 0x3000FFFFAC000081] := by decide
theorem witness_EarlyReadsAndCommandsBreakTheHostsObligations :
    (SensorCommand.measureLowRep true).responseLength = 6 ∧ SensorCommand.readStatus.responseLength ≠ 0 ∧
    [9, 10].map (fun ms => ((HostPhase.start 0x44).allowsAll
      (powerOn ++ [sendCommand 0x44 .softReset true, .wait ms, sendCommand 0x44 .heaterOn true])).isSome) =
      [false, true] ∧
    [14, 15].map (fun ms => ((HostPhase.start 0x44).allowsAll
      (powerOn ++ [sendCommand 0x44 (.measureMedRep true) true, .wait ms, .readBlock 0x44 0 6 none])).isSome) =
      [false, true] ∧
    [49, 50].map (fun ms => ((HostPhase.start 0x44).allowsAll
      [.construct, .wait ms, sendCommand 0x44 .clearStatus true]).isSome) = [false, true] := by decide

end Sys2Proof.Tests
end

section
/-! The sticky bits of the state, `ERR`, `MV` and `SV` (10_state.md R22, R25, R28): what each operation and
each step does to them, and what `MV` = 0 says of the result registers. -/

namespace Sys2Proof.Machine

open Sys2Proof.Safety

/-- An illegal word's step (43_control.md R191). -/
theorem step_illegal {s : State} {w : Word} {rest : List HostEvent} {why : IllegalReason}
    (hin : s.input = .word w :: rest) (hdec : decode w = .illegal why) :
    step s = .next ((s.withInput rest).raiseIllegal w) := by
  simp [step, State.take_illegal hin hdec]

/-- MDEC sets `MV` and leaves `SV`, on every frame (41_measurement_decoder.md R136). -/
theorem exec_mdec_validBits (b0 b1 b2 b3 b4 b5 : Byte) (s : State) :
    ∃ t, exec (.mdec b0 b1 b2 b3 b4 b5) s = .next t ∧ t.mv = true ∧ t.sv = s.sv :=
  ⟨_, rfl, State.writeMeasurement_mv .., State.writeMeasurement_sv ..⟩

/-- SDEC sets `SV` and leaves `MV`, on every frame (42_status_extractor.md R161). -/
theorem exec_sdec_validBits (b0 b1 b2 : Byte) (s : State) :
    ∃ t, exec (.sdec b0 b1 b2) s = .next t ∧ t.sv = true ∧ t.mv = s.mv :=
  ⟨_, rfl, State.writeStatus_sv .., State.writeStatus_mv ..⟩

/-- No operation clears a valid bit. -/
theorem exec_keeps_validBits {i : Instr} {s t : State} (h : exec i s = .next t) :
    (s.mv = true → t.mv = true) ∧ (s.sv = true → t.sv = true) := by
  rcases exec_cases h with rfl | ⟨v, rfl⟩ | ⟨tOk, tRaw, hOk, hRaw, rfl⟩ | ⟨ok, w, rfl⟩ <;> simp

/-- No operation reads `ERR`: with another value there it answers the same state, that value kept. -/
theorem exec_withErr {i : Instr} {s t : State} (e : Bool) (h : exec i s = .next t) :
    exec i { s with err := e } = .next { t with err := e } := by
  cases i with
  | nop | crcinit | crcbyte | mdec | sdec =>
    cases h
    rfl

/-- A step that finds `ERR` 0 and leaves it 1 has taken an illegal word. -/
theorem step_illegal_of_sets_err {s t : State} (h : step s = .next t) (hs : s.err = false) (ht : t.err = true) :
    ∃ w rest why, s.input = .word w :: rest ∧ decode w = .illegal why := by
  rcases step_cases h with ⟨_, rfl⟩ | ⟨rest, _, rfl⟩ | ⟨w, rest, i, _, _, hexec⟩ | ⟨w, rest, why, hin, hdec, _⟩
  · simp [hs] at ht
  · simp at ht
  · have herr : t.err = s.err := (exec_keeps_input_err hexec).2
    simp [herr, hs] at ht
  · exact ⟨w, rest, why, hin, hdec⟩

/-- A step takes a reset event or clears none of `ERR`, `MV` and `SV`. -/
theorem step_reset_or_keeps_sticky {s t : State} (h : step s = .next t) :
    (∃ rest, s.input = .reset :: rest) ∨
    ((s.err = true → t.err = true) ∧ (s.mv = true → t.mv = true) ∧ (s.sv = true → t.sv = true)) := by
  rcases step_cases h with ⟨_, rfl⟩ | ⟨rest, hin, _⟩ | ⟨w, rest, i, _, _, hexec⟩ | ⟨w, rest, why, _, _, rfl⟩
  · exact .inr ⟨id, id, id⟩
  · exact .inl ⟨rest, hin⟩
  · have herr : t.err = s.err := (exec_keeps_input_err hexec).2
    have hbits := exec_keeps_validBits hexec
    exact .inr ⟨fun hs => herr.trans hs, hbits⟩
  · exact .inr ⟨fun _ => rfl, id, id⟩

/-- While `MV` = 0, `out_meas` shows nothing (10_state.md R30), whatever the result registers hold. -/
theorem outMeas_of_mv_false {s : State} (hmv : s.mv = false) : outMeas s = none := by
  refine Option.eq_none_iff_forall_ne_some.mpr fun m hm => ?_
  have htrue : s.mv = true := ((outMeas_eq_some_iff s m).mp hm).1
  simp [hmv] at htrue

/-- While `MV` = 0, the measurement's part of the invariant says that MDEC's registers hold no value. -/
theorem measurementInv_of_mv_false {s : State} (hmv : s.mv = false) :
    measurementInv s = true ↔ s.tOk = none ∧ s.hOk = none ∧ s.tVal = none ∧ s.hVal = none := by
  obtain ⟨acc, mv, tOk, hOk, tVal, hVal, sv, stOk, stWord, err, input⟩ := s
  cases hmv
  cases tOk <;> cases tVal <;> cases hOk <;> cases hVal <;> simp [measurementInv]

theorem stateInv_iff (s : State) : stateInv s = true ↔ measurementInv s = true ∧ statusInv s = true := by
  simp [stateInv]

/-- Settles O33: only `raiseIllegal` and reset write `ERR` (`step_cases`), and every operation's state is the
old one with registers other than `ERR` written. -/
theorem errIsStickyAndNoOperationReadsIt : Obligations.ErrIsStickyAndNoOperationReadsIt := by
  refine ⟨State.reset_err, ?illegalSets, ?onlyIllegalSets, ?onlyResetClears, ?notRead⟩
  case illegalSets =>
    intro s w rest why hin hdec
    exact ⟨_, step_illegal hin hdec, State.raiseIllegal_err ..⟩
  case onlyIllegalSets =>
    intro s t h hs ht
    exact step_illegal_of_sets_err h hs ht
  case onlyResetClears =>
    intro s t h hs ht
    rcases step_reset_or_keeps_sticky h with hreset | ⟨herr, _⟩
    · exact hreset
    · simp [herr hs] at ht
  case notRead =>
    intro i s t e h
    exact ⟨(exec_keeps_input_err h).2, exec_withErr e h⟩

/-- Settles O43: MDEC and SDEC write their bits, no operation clears either, and the invariant leaves MDEC's
registers without a value while `MV` = 0. -/
theorem validBitsAreSetByTheirDecodes : Obligations.ValidBitsAreSetByTheirDecodes := by
  refine ⟨State.reset_mv, State.reset_sv, exec_mdec_validBits, exec_sdec_validBits, ?onlyResetClears,
    fun _ => outMeas_of_mv_false, ?noValues⟩
  case onlyResetClears =>
    intro s t h hcleared
    rcases step_reset_or_keeps_sticky h with hreset | ⟨_, hmv, hsv⟩
    · exact hreset
    · rcases hcleared with ⟨hs, ht⟩ | ⟨hs, ht⟩
      · simp [hmv hs] at ht
      · simp [hsv hs] at ht
  case noValues =>
    intro s hinv hmv
    obtain ⟨htOk, hhOk, htVal, hhVal⟩ :=
      (measurementInv_of_mv_false hmv).mp ((stateInv_iff s).mp hinv).1
    simp [htOk, hhOk, htVal, hhVal]

end Sys2Proof.Machine
end

section
/-! The operation word read by its fields (30_encoding.md R81, R83, R84): one inversion of the decoder, what
a row's match and mask say of the fields, and from them which words are which operation and where each frame
byte comes from. -/

namespace Sys2Proof

/-- An opcode is one of the five assigned ones or from 5 on. -/
theorem opcode_cases (op : BitVec 4) :
    op = 0#4 ∨ op = 1#4 ∨ op = 2#4 ∨ op = 3#4 ∨ op = 4#4 ∨ 5 ≤ op.toNat := by
  revert op
  decide

theorem ne_of_unassigned {op : BitVec 4} (h : 5 ≤ op.toNat) {k : BitVec 4} (hk : k.toNat < 5) : op ≠ k := by
  rintro rfl
  omega

theorem decodeOperand_nop (opnd : BitVec 48) : decodeOperand 0#4 opnd = legalIf (opnd == 0) .nop := rfl

theorem decodeOperand_crcinit (opnd : BitVec 48) : decodeOperand 1#4 opnd = legalIf (opnd == 0) .crcinit := rfl

theorem decodeOperand_crcbyte (opnd : BitVec 48) :
    decodeOperand 2#4 opnd = legalIf (opnd.extractLsb' 8 40 == 0) (.crcbyte (frameByte 1 0 opnd)) := rfl

theorem decodeOperand_mdec (opnd : BitVec 48) :
    decodeOperand 3#4 opnd = .legal (.mdec (frameByte 6 0 opnd) (frameByte 6 1 opnd) (frameByte 6 2 opnd)
      (frameByte 6 3 opnd) (frameByte 6 4 opnd) (frameByte 6 5 opnd)) := rfl

theorem decodeOperand_sdec (opnd : BitVec 48) :
    decodeOperand 4#4 opnd = legalIf (opnd.extractLsb' 24 24 == 0)
      (.sdec (frameByte 3 0 opnd) (frameByte 3 1 opnd) (frameByte 3 2 opnd)) := rfl

theorem decodeOperand_unassigned {op : BitVec 4} (h : 5 ≤ op.toNat) (opnd : BitVec 48) :
    decodeOperand op opnd = .illegal .unassignedOpcode := by
  simp [decodeOperand, ne_of_unassigned h]

/-- All that an opcode and an operand can decode to. -/
theorem decodeOperand_eq_legal_iff (op : BitVec 4) (opnd : BitVec 48) (i : Instr) :
    decodeOperand op opnd = .legal i ↔
      (op = 0 ∧ opnd = 0 ∧ i = .nop) ∨
      (op = 1 ∧ opnd = 0 ∧ i = .crcinit) ∨
      (op = 2 ∧ opnd.extractLsb' 8 40 = 0 ∧ i = .crcbyte (frameByte 1 0 opnd)) ∨
      (op = 3 ∧ i = .mdec (frameByte 6 0 opnd) (frameByte 6 1 opnd) (frameByte 6 2 opnd)
        (frameByte 6 3 opnd) (frameByte 6 4 opnd) (frameByte 6 5 opnd)) ∨
      (op = 4 ∧ opnd.extractLsb' 24 24 = 0 ∧
        i = .sdec (frameByte 3 0 opnd) (frameByte 3 1 opnd) (frameByte 3 2 opnd)) := by
  rcases opcode_cases op with rfl | rfl | rfl | rfl | rfl | h
  · simp [decodeOperand_nop, legalIf_eq_legal_iff, eq_comm (b := i)]
  · simp [decodeOperand_crcinit, legalIf_eq_legal_iff, eq_comm (b := i)]
  · simp [decodeOperand_crcbyte, legalIf_eq_legal_iff, eq_comm (b := i)]
  · simp [decodeOperand_mdec, eq_comm (b := i)]
  · simp [decodeOperand_sdec, legalIf_eq_legal_iff, eq_comm (b := i)]
  · simp [decodeOperand_unassigned h, ne_of_unassigned h]

/-- A word is legal by reserved bits 0 and its op and operand. -/
theorem decode_eq_legal_iff (w : Word) (i : Instr) :
    decode w = .legal i ↔ rsvField w = 0 ∧ decodeOperand (opField w) (opndField w) = .legal i := by
  refine ⟨decode_legal_fields, fun ⟨hrsv, hop⟩ => ?_⟩
  rw [decode_of_rsv_zero hrsv, hop]

theorem exists_legalIf_eq_illegal_iff (c : Bool) (i : Instr) :
    (∃ why, legalIf c i = .illegal why) ↔ c = false := by
  cases c <;> simp

/-- The operands that an opcode makes illegal: any under an unassigned one, and those with a 1 in a bit that the
operation does not use (30_encoding.md R84). -/
theorem decodeOperand_illegal_iff (op : BitVec 4) (opnd : BitVec 48) :
    (∃ why, decodeOperand op opnd = .illegal why) ↔
      5 ≤ op.toNat ∨ (op = 0 ∧ opnd ≠ 0) ∨ (op = 1 ∧ opnd ≠ 0) ∨
        (op = 2 ∧ opnd.extractLsb' 8 40 ≠ 0) ∨ (op = 4 ∧ opnd.extractLsb' 24 24 ≠ 0) := by
  rcases opcode_cases op with rfl | rfl | rfl | rfl | rfl | h
  · simp [decodeOperand_nop, exists_legalIf_eq_illegal_iff]
  · simp [decodeOperand_crcinit, exists_legalIf_eq_illegal_iff]
  · simp [decodeOperand_crcbyte, exists_legalIf_eq_illegal_iff]
  · simp [decodeOperand_mdec]
  · simp [decodeOperand_sdec, exists_legalIf_eq_illegal_iff]
  · simp [decodeOperand_unassigned h, h]

theorem decode_of_rsv_ne_zero {w : Word} (h : rsvField w ≠ 0) : decode w = .illegal .reservedBits :=
  if_neg h

/-- A word is illegal by its reserved bits or by its op and operand. -/
theorem decode_illegal_iff (w : Word) :
    (∃ why, decode w = .illegal why) ↔
      rsvField w ≠ 0 ∨ ∃ why, decodeOperand (opField w) (opndField w) = .illegal why := by
  by_cases hrsv : rsvField w = 0
  · simp [decode_of_rsv_zero hrsv, hrsv]
  · exact iff_of_true ⟨_, decode_of_rsv_ne_zero hrsv⟩ (.inl hrsv)

/-- Words are compared field by field. -/
theorem word_eq_iff_fields (v w : Word) :
    v = w ↔ opField v = opField w ∧ rsvField v = rsvField w ∧ opndField v = opndField w := by
  constructor
  · rintro rfl
    exact ⟨rfl, rfl, rfl⟩
  · rintro ⟨hop, hrsv, hopnd⟩
    rw [word_eq_fields v, word_eq_fields w, hop, hrsv, hopnd]

@[simp] theorem opField_and (v w : Word) : opField (v &&& w) = opField v &&& opField w :=
  BitVec.extractLsb'_and

@[simp] theorem rsvField_and (v w : Word) : rsvField (v &&& w) = rsvField v &&& rsvField w :=
  BitVec.extractLsb'_and

@[simp] theorem opndField_and (v w : Word) : opndField (v &&& w) = opndField v &&& opndField w :=
  BitVec.extractLsb'_and

/-- The mask of the bits from `k` on leaves nothing exactly when those bits are 0. -/
theorem and_allOnes_shiftLeft_eq_zero_iff {n : Nat} (x : BitVec n) (k : Nat) :
    x &&& (BitVec.allOnes n <<< k) = 0 ↔ x.extractLsb' k (n - k) = 0 := by
  simp only [BitVec.eq_of_getLsbD_eq_iff]
  constructor
  · intro h i hi
    have hlt : k + i < n := by omega
    simpa [hlt, hi] using h (k + i) hlt
  · intro h i hi
    by_cases hk : i < k
    · simp [hk]
    · have hlt : i - k < n - k := by omega
      simpa [hk, hi, hlt, Nat.add_sub_cancel' (Nat.le_of_not_lt hk)] using h (i - k) hlt

/-- What a row of the table says of a word's fields: its mask covers op, rsv and the operand bits from `k` on,
and its match has an opcode and no other 1. -/
theorem and_mask_eq_opWord_iff {mask : Word} {k : Nat} (hop : opField mask = BitVec.allOnes 4)
    (hrsv : rsvField mask = BitVec.allOnes 12) (hopnd : opndField mask = BitVec.allOnes 48 <<< k)
    (w : Word) (op : BitVec 4) :
    w &&& mask = opWord op 0 ↔
      rsvField w = 0 ∧ opField w = op ∧ (opndField w).extractLsb' k (48 - k) = 0 := by
  rw [word_eq_iff_fields, opndField_and, opndField_opWord, hopnd, and_allOnes_shiftLeft_eq_zero_iff]
  simp only [opField_and, rsvField_and, hop, hrsv, BitVec.and_allOnes, opField_opWord, rsvField_opWord]
  exact and_left_comm

theorem decode_nop_iff (w : Word) :
    decode w = .legal .nop ↔ w &&& 0xFFFFFFFFFFFFFFFF = 0x0000000000000000 := by
  refine Iff.trans ?_ (and_mask_eq_opWord_iff (k := 0) (by decide) (by decide) (by decide) w 0).symm
  simp [decode_eq_legal_iff, decodeOperand_eq_legal_iff]

theorem decode_crcinit_iff (w : Word) :
    decode w = .legal .crcinit ↔ w &&& 0xFFFFFFFFFFFFFFFF = 0x1000000000000000 := by
  refine Iff.trans ?_ (and_mask_eq_opWord_iff (k := 0) (by decide) (by decide) (by decide) w 1).symm
  simp [decode_eq_legal_iff, decodeOperand_eq_legal_iff]

theorem decode_crcbyte_iff (w : Word) :
    (∃ d, decode w = .legal (.crcbyte d)) ↔ w &&& 0xFFFFFFFFFFFFFF00 = 0x2000000000000000 := by
  refine Iff.trans ?_ (and_mask_eq_opWord_iff (k := 8) (by decide) (by decide) (by decide) w 2).symm
  simp [decode_eq_legal_iff, decodeOperand_eq_legal_iff]

theorem decode_mdec_iff (w : Word) :
    (∃ b0 b1 b2 b3 b4 b5, decode w = .legal (.mdec b0 b1 b2 b3 b4 b5)) ↔
      w &&& 0xFFFF000000000000 = 0x3000000000000000 := by
  refine Iff.trans ?_ (and_mask_eq_opWord_iff (k := 48) (by decide) (by decide) (by decide) w 3).symm
  simp [decode_eq_legal_iff, decodeOperand_eq_legal_iff, BitVec.of_length_zero]

theorem decode_sdec_iff (w : Word) :
    (∃ b0 b1 b2, decode w = .legal (.sdec b0 b1 b2)) ↔ w &&& 0xFFFFFFFFFF000000 = 0x4000000000000000 := by
  refine Iff.trans ?_ (and_mask_eq_opWord_iff (k := 24) (by decide) (by decide) (by decide) w 4).symm
  simp [decode_eq_legal_iff, decodeOperand_eq_legal_iff]

/-- A row of the table accepts a word: one of the five matches, written out. -/
theorem exists_row_accepts_iff (w : Word) :
    (∃ r ∈ opcodeRows, r.accepts w = true) ↔
      w &&& 0xFFFFFFFFFFFFFFFF = 0x0000000000000000 ∨ w &&& 0xFFFFFFFFFFFFFFFF = 0x1000000000000000 ∨
      w &&& 0xFFFFFFFFFFFFFF00 = 0x2000000000000000 ∨ w &&& 0xFFFF000000000000 = 0x3000000000000000 ∨
      w &&& 0xFFFFFFFFFF000000 = 0x4000000000000000 := by
  simp only [opcodeRows, OpcodeRow.accepts, List.exists_mem_cons_iff, List.not_mem_nil, false_and, exists_false,
    or_false, beq_iff_eq]

/-- A word is legal exactly when it matches a row (30_encoding.md R84). -/
theorem decode_legal_iff_row (w : Word) :
    (∃ i, decode w = .legal i) ↔ ∃ r ∈ opcodeRows, r.accepts w = true := by
  rw [exists_row_accepts_iff, ← decode_nop_iff, ← decode_crcinit_iff, ← decode_crcbyte_iff, ← decode_mdec_iff,
    ← decode_sdec_iff]
  constructor
  · rintro ⟨i, h⟩
    cases i with
    | nop => exact .inl h
    | crcinit => exact .inr (.inl h)
    | crcbyte d => exact .inr (.inr (.inl ⟨d, h⟩))
    | mdec b0 b1 b2 b3 b4 b5 => exact .inr (.inr (.inr (.inl ⟨b0, b1, b2, b3, b4, b5, h⟩)))
    | sdec b0 b1 b2 => exact .inr (.inr (.inr (.inr ⟨b0, b1, b2, h⟩)))
  · rintro (h | h | ⟨_, h⟩ | ⟨_, _, _, _, _, _, h⟩ | ⟨_, _, _, h⟩) <;> exact ⟨_, h⟩

/-- A row that accepts a word fixes its op. -/
theorem opField_of_accepts {r : OpcodeRow} (hr : r ∈ opcodeRows) {w : Word} (h : r.accepts w = true) :
    opField w = opField r.matchBits := by
  have hmask : ∀ r ∈ opcodeRows, opField r.maskBits = BitVec.allOnes 4 := by decide
  have hand : w &&& r.maskBits = r.matchBits := beq_iff_eq.mp h
  rw [← hand, opField_and, hmask r hr, BitVec.and_allOnes]

/-- "The rows are disjoint, because each has a different `op`" (30_encoding.md R84). -/
theorem row_unique {w : Word} {r₁ r₂ : OpcodeRow} (h₁ : r₁ ∈ opcodeRows) (h₂ : r₂ ∈ opcodeRows)
    (ha₁ : r₁.accepts w = true) (ha₂ : r₂.accepts w = true) : r₁ = r₂ := by
  have hnodup : (opcodeRows.map fun r => opField r.matchBits).Nodup := by decide
  exact List.inj_on_of_nodup_map hnodup h₁ h₂
    ((opField_of_accepts h₁ ha₁).symm.trans (opField_of_accepts h₂ ha₂))

/-- Bits of the operand are the same bits of the word. -/
theorem extractLsb'_opndField {start len : Nat} (h : start + len ≤ 48) (w : Word) :
    (opndField w).extractLsb' start len = w.extractLsb' start len := by
  rw [opndField, BitVec.extractLsb'_extractLsb'_of_le h]

/-- Settles O3: each row's match and mask say what the decoder asks of the fields (`and_mask_eq_opWord_iff`), and
the illegal words are read off the decoder field by field. -/
theorem legalWordsAreTheTableRows : Obligations.LegalWordsAreTheTableRows := by
  refine ⟨fun w => ⟨decode_nop_iff w, decode_crcinit_iff w, decode_crcbyte_iff w, decode_mdec_iff w,
    decode_sdec_iff w, ?illegal⟩, decode_legal_iff_row, fun w r₁ r₂ => row_unique⟩
  case illegal =>
    rw [decode_illegal_iff, decodeOperand_illegal_iff, or_left_comm, extractLsb'_opndField (by decide),
      extractLsb'_opndField (by decide)]
    rfl

/-- Frame byte `k` of an `n`-byte frame, as bits of the word. -/
theorem frameByte_opndField {n k : Nat} (h : 8 * (n - 1 - k) + 8 ≤ 48) (w : Word) :
    frameByte n k (opndField w) = w.extractLsb' (8 * (n - 1 - k)) 8 :=
  extractLsb'_opndField h w

/-- Settles O4: the decoder's frame bytes (`decodeOperand_eq_legal_iff`), each read at its place in the word. -/
theorem operandBytesComeFromTheirBits : Obligations.OperandBytesComeFromTheirBits := by
  refine ⟨fun w d h => ?crcbyte, fun w b0 b1 b2 b3 b4 b5 h => ?mdec, fun w b0 b1 b2 h => ?sdec⟩ <;>
    simp only [decode_eq_legal_iff, decodeOperand_eq_legal_iff, reduceCtorEq, and_false, or_false, false_or,
      Instr.crcbyte.injEq, Instr.mdec.injEq, Instr.sdec.injEq] at h
  case crcbyte =>
    obtain ⟨_, _, _, rfl⟩ := h
    exact frameByte_opndField (by decide) w
  case mdec =>
    obtain ⟨_, _, rfl, rfl, rfl, rfl, rfl, rfl⟩ := h
    refine ⟨?_, ?_, ?_, ?_, ?_, ?_⟩ <;> exact frameByte_opndField (by decide) w
  case sdec =>
    obtain ⟨_, _, _, rfl, rfl, rfl⟩ := h
    refine ⟨?_, ?_, ?_⟩ <;> exact frameByte_opndField (by decide) w

end Sys2Proof
end

section
/-! What the assembler's pseudo-instructions build (30_encoding.md R87): the bytes of a 16-bit number, a triplet
with its own CRC, and the outputs after the frames made of them. -/

namespace Sys2Proof.Machine

theorem highByte_toNat (h : Half) : highByte h.toNat = h.extractLsb 15 8 := by
  apply BitVec.eq_of_toNat_eq
  simp [highByte, Nat.shiftRight_eq_div_pow]

theorem lowByte_toNat (h : Half) : lowByte h.toNat = h.extractLsb 7 0 := by
  apply BitVec.eq_of_toNat_eq
  simp [lowByte]

theorem checkByte_toNat (h : Half) : checkByte h.toNat = crc8 [h.extractLsb 15 8, h.extractLsb 7 0] := by
  rw [checkByte, highByte_toNat, lowByte_toNat]

@[simp] theorem isHalfOperand_toNat (h : Half) : isHalfOperand h.toNat = true :=
  decide_eq_true h.isLt

/-- A triplet whose third byte is the CRC of the other two matches (40_crc.md R116). -/
@[simp] theorem tripletMatches_crc8 (b0 b1 : Byte) : tripletMatches b0 b1 (crc8 [b0, b1]) = true :=
  (tripletMatches_iff b0 b1 _).mpr rfl

/-- What MDEC writes (41_measurement_decoder.md R136). -/
theorem exec_mdec (b0 b1 b2 b3 b4 b5 : Byte) (s : State) :
    exec (.mdec b0 b1 b2 b3 b4 b5) s = .next (s.writeMeasurement
      (tripletMatches b0 b1 b2) (gated (tripletMatches b0 b1 b2) (temp (b0 ++ b1)))
      (tripletMatches b3 b4 b5) (gated (tripletMatches b3 b4 b5) (hum (b3 ++ b4)))) := rfl

/-- What SDEC writes (42_status_extractor.md R161). -/
theorem exec_sdec (b0 b1 b2 : Byte) (s : State) :
    exec (.sdec b0 b1 b2) s = .next (s.writeStatus (tripletMatches b0 b1 b2) (b0 ++ b1)) := rfl

/-- MDEC of two triplets with their own CRCs writes both values, both flags 1. -/
theorem exec_mdec_crc8 (b0 b1 b3 b4 : Byte) (s : State) :
    exec (.mdec b0 b1 (crc8 [b0, b1]) b3 b4 (crc8 [b3, b4])) s =
      .next (s.writeMeasurement true (temp (b0 ++ b1)) true (hum (b3 ++ b4))) := by
  rw [exec_mdec, tripletMatches_crc8, tripletMatches_crc8, gated_true, gated_true]

/-- SDEC of a triplet with its own CRC keeps its word. -/
theorem exec_sdec_crc8 (b0 b1 : Byte) (s : State) :
    exec (.sdec b0 b1 (crc8 [b0, b1])) s = .next (s.writeStatus true (b0 ++ b1)) := by
  rw [exec_sdec, tripletMatches_crc8]

/-- After MDEC's writes, `out_meas` shows them (10_state.md R30). -/
theorem outMeas_writeMeasurement (s : State) (tOk : Bool) (tVal : F64) (hOk : Bool) (hVal : F64) :
    outMeas (s.writeMeasurement tOk tVal hOk hVal) = some ⟨tOk, tVal, hOk, hVal⟩ :=
  (outMeas_eq_some_iff _ _).mpr ⟨rfl, rfl, rfl, rfl, rfl⟩

/-- After SDEC's writes on a match, `out_status` shows the word (10_state.md R30). -/
theorem outStatus_writeStatus_true (s : State) (w : Half) : outStatus (s.writeStatus true w) = some w :=
  outStatus_of_present ((stState_present_iff _).mpr ⟨rfl, rfl⟩)

theorem assemble_crcOf {bytes : List Nat} (h : ∀ b ∈ bytes, b < 256) :
    assemble (.crcOf bytes) =
      some (encode .crcinit :: bytes.map fun b => encode (.crcbyte (BitVec.ofNat 8 b))) := by
  have hwf : (AsmLine.crcOf bytes).wellFormed = true :=
    List.all_eq_true.mpr fun b hb => decide_eq_true (h b hb)
  simp [assemble, hwf, lineOperations, byteOf]

theorem assemble_mframe (t h : Half) :
    assemble (.mframe t.toNat h.toNat) = some [encode (.mdec
      (t.extractLsb 15 8) (t.extractLsb 7 0) (crc8 [t.extractLsb 15 8, t.extractLsb 7 0])
      (h.extractLsb 15 8) (h.extractLsb 7 0) (crc8 [h.extractLsb 15 8, h.extractLsb 7 0]))] := by
  simp [assemble, AsmLine.wellFormed, lineOperations, highByte_toNat, lowByte_toNat, checkByte_toNat]

theorem assemble_sframe (w : Half) :
    assemble (.sframe w.toNat) = some [encode (.sdec
      (w.extractLsb 15 8) (w.extractLsb 7 0) (crc8 [w.extractLsb 15 8, w.extractLsb 7 0]))] := by
  simp [assemble, AsmLine.wellFormed, lineOperations, highByte_toNat, lowByte_toNat, checkByte_toNat]

/-- The two bytes of a 16-bit number make it up again. -/
theorem extractLsb_bytes (h : Half) : h.extractLsb 15 8 ++ h.extractLsb 7 0 = h :=
  opcode_of_bytes h

/-- Settles O49: the frames carry their own CRCs, so both fields match, and the two bytes of a number make it up
again. -/
theorem assembledFramesAlwaysMatch : Obligations.AssembledFramesAlwaysMatch := by
  refine ⟨fun bytes => assemble_crcOf, fun t h => ⟨_, assemble_mframe t h, rfl, fun s => ?mframe⟩,
    fun w => ⟨_, assemble_sframe w, rfl, fun s => ?sframe⟩⟩
  case mframe =>
    refine ⟨_, exec_mdec_crc8 .., ?_⟩
    rw [outMeas_writeMeasurement, extractLsb_bytes, extractLsb_bytes]
  case sframe =>
    refine ⟨_, exec_sdec_crc8 .., ?_⟩
    rw [outStatus_writeStatus_true, extractLsb_bytes]

end Sys2Proof.Machine
end

section
/-! The CRC-8 generator (40_crc.md R110 to R113): the CRC functions' equations, which words CRCBYTE's opcode
takes and refuses, and what the family's two operations write. -/

namespace Sys2Proof.Machine

/-- `crc_step` as the eight shift steps of R110. -/
theorem crcStep_eq_eight_shifts (r : Byte) :
    crcStep r = crcShift (crcShift (crcShift (crcShift (crcShift (crcShift (crcShift (crcShift r))))))) := by
  simp only [crcStep, crcShifts_succ, crcShifts_zero]

@[simp] theorem crc8_nil : crc8 [] = 0xFF := rfl

/-- The fold of R111 takes its last byte last. -/
theorem crc8_append_singleton (bytes : List Byte) (b : Byte) : crc8 (bytes ++ [b]) = crcByte (crc8 bytes) b := by
  simp only [crc8, List.foldl_append, List.foldl_cons, List.foldl_nil]

/-- A byte equal to the register cancels it, and only zeros are shifted. -/
@[simp] theorem crcByte_self (d : Byte) : crcByte d d = 0 := by
  rw [crcByte, BitVec.xor_self, crcStep]
  exact crcShifts_of_zero 8

/-- What CRCINIT writes (40_crc.md R112). -/
theorem exec_crcinit (s : State) : exec .crcinit s = .next (s.writeAcc 0xFF) := rfl

/-- What CRCBYTE writes (40_crc.md R113). -/
theorem exec_crcbyte (d : Byte) (s : State) : exec (.crcbyte d) s = .next (s.writeAcc (crcByte s.acc d)) := rfl

theorem State.writeAcc_of_acc_eq {s : State} {v : Byte} (h : s.acc = v) : s.writeAcc v = s := by
  subst h
  rfl

/-- A word of CRCBYTE's row decodes to it, with its low byte as the operand (30_encoding.md R83, R84). -/
theorem decode_crcbyte_of_row {w : Word} (h : w &&& 0xFFFFFFFFFFFFFF00 = 0x2000000000000000) :
    decode w = .legal (.crcbyte (w.extractLsb 7 0)) := by
  obtain ⟨d, hdec⟩ := (decode_crcbyte_iff w).mpr h
  obtain ⟨hcrcbyte, -⟩ := operandBytesComeFromTheirBits
  rw [hdec, hcrcbyte w d hdec]

/-- With CRCBYTE's opcode, a 1 in an unused operand bit makes the word illegal (43_control.md R191). -/
theorem decode_illegal_of_crcbyte_unused {w : Word} (hop : w.extractLsb 63 60 = 2)
    (hunused : w.extractLsb 47 8 ≠ 0) : ∃ why, decode w = .illegal why := by
  have hbits : (opndField w).extractLsb' 8 40 ≠ 0 := by
    rwa [extractLsb'_opndField (by decide)]
  have hopnd : ∃ why, decodeOperand (opField w) (opndField w) = .illegal why :=
    (decodeOperand_illegal_iff _ _).mpr (.inr (.inr (.inr (.inl ⟨hop, hbits⟩))))
  exact (decode_illegal_iff w).mpr (.inr hopnd)

/-- Settles O10: the functions' equations. -/
theorem crcFunctionsFollowThePseudocode : Obligations.CrcFunctionsFollowThePseudocode :=
  ⟨fun _ => rfl, crcStep_eq_eight_shifts, fun _ _ => rfl, crc8_nil, crc8_append_singleton⟩

/-- Settles O11: CRCINIT is one write of `ACC`, which changes nothing where `ACC` holds the value already. -/
theorem crcinitLoadsTheInitialValue : Obligations.CrcinitLoadsTheInitialValue := by
  refine ⟨(decode_crcinit_iff _).mpr (by decide), exec_crcinit, fun s hacc => ?unchanged,
    fun s => ⟨_, exec_crcinit s, rfl, crc8_nil.symm⟩⟩
  case unchanged =>
    rw [exec_crcinit, State.writeAcc_of_acc_eq hacc]

/-- Settles O12: CRCBYTE is one write of `ACC`; its words are those of its row, and with its opcode a 1 in an
unused operand bit raises the illegal-word outcome, which writes `ERR` alone. -/
theorem crcbyteFeedsOneByte : Obligations.CrcbyteFeedsOneByte := by
  refine ⟨fun w => decode_crcbyte_of_row, exec_crcbyte, fun d s hacc => ?cancels,
    fun s w rest hin hop hunused => ?illegal⟩
  case cancels =>
    rw [exec_crcbyte, hacc, crcByte_self]
    rfl
  case illegal =>
    obtain ⟨why, hdec⟩ := decode_illegal_of_crcbyte_unused hop hunused
    exact step_illegal hin hdec

end Sys2Proof.Machine
end

section
/-! The values of the linear transfer functions (41_measurement_decoder.md R133, R134): what each binary64
operation gives on the formulas' operands, the product exact, the quotient and the difference rounded once. -/

namespace Sys2Proof.Machine

/-- A fraction with a small integer numerator rounds to a finite magnitude. -/
theorem roundUnits_integer_lt {n d : Nat} (hn : n < 2 ^ 53) (hd : 0 < d) :
    roundUnits (n * oneUnits) d < 2047 * 2 ^ 52 := by
  obtain ⟨-, hfin⟩ := roundShift_integer hn
  have hle : roundUnits (n * oneUnits) d ≤ roundUnits (n * oneUnits) 1 :=
    roundUnits_mono hd Nat.one_pos (Nat.mul_le_mul_left _ hd)
  exact hle.trans_lt hfin

theorem isFinite_rne64_natCast {n d : Nat} (hn : n < 2 ^ 53) (hd : 0 < d) : isFinite (rne64 (n : Int) d) = true := by
  rw [rne64_natCast]
  exact isFinite_packF64 _ (roundUnits_integer_lt hn hd)

theorem msb_rne64_natCast (n d : Nat) : (rne64 (n : Int) d).msb = false := by
  rw [rne64_natCast, msb_packF64]

/-- `f64(n)` has the value n below 2^53 (00_scope.md R12). -/
theorem units_f64 {n : Nat} (hn : n < 2 ^ 53) : units (f64 n) = n * oneUnits := by
  rw [units_of_msb_false (msb_f64 n), magUnits_f64 hn, Nat.cast_mul]

theorem rne64_zero {d : Nat} (hd : 0 < d) : rne64 0 d = packF64 false 0 := by
  have hzero : roundUnits (0 * 2 ^ 0 * d) d = 0 * 2 ^ 52 + 0 :=
    roundUnits_exact (Nat.two_pow_pos 53) (.inl rfl) (by decide) d hd
  rw [Nat.zero_mul, Nat.zero_mul, Nat.zero_mul] at hzero
  rw [rne64, Int.natAbs_zero, Nat.zero_mul, hzero]
  rfl

/-- A magnitude over the unit's own denominator is that many whole units. -/
theorem roundUnits_mul_oneUnits (n : Nat) : roundUnits (n * oneUnits) oneUnits = roundUnits n 1 := by
  rw [← roundUnits_scale Nat.one_pos oneUnits_pos, Nat.one_mul]

/-- A product of integers is their integer product, rounded. -/
theorem fmul_f64 {a b : Nat} (ha : a < 2 ^ 53) (hb : b < 2 ^ 53) : fmul (f64 a) (f64 b) = f64 (a * b) := by
  have hmag : a * oneUnits * (b * oneUnits) = a * b * oneUnits * oneUnits := by
    rw [Nat.mul_mul_mul_comm, Nat.mul_assoc (a * b)]
  rw [fmul_of_finite (isFinite_f64 ha) (isFinite_f64 hb), magUnits_f64 ha, magUnits_f64 hb, msb_f64, msb_f64,
    hmag, roundUnits_mul_oneUnits, f64, rne64_natCast, Bool.xor_false]

/-- A quotient of integers is their exact quotient rounded once. -/
theorem fdiv_f64 {a b : Nat} (ha : a < 2 ^ 53) (hb : b < 2 ^ 53) (h0 : 0 < b) :
    fdiv (f64 a) (f64 b) = rne64 (a : Int) b := by
  have hmag : magUnits (f64 b) ≠ 0 := by
    rw [magUnits_f64 hb]
    exact Nat.mul_ne_zero h0.ne' oneUnits_pos.ne'
  rw [fdiv_of_finite (isFinite_f64 ha) (isFinite_f64 hb) hmag, magUnits_f64 ha, magUnits_f64 hb, msb_f64, msb_f64,
    roundUnits_scale h0 oneUnits_pos, rne64_natCast, Bool.xor_false]

/-- A difference of finite values is the exact difference rounded once; an exact zero is +0 like `RNE64`'s,
unless the minuend is negative. -/
theorem fsub_eq_rne64 {a b : F64} (ha : isFinite a = true) (hb : isFinite b = true)
    (hzero : units a - units b = 0 → a.msb = false) : fsub a b = rne64 (units a - units b) oneUnits := by
  rw [fsub_of_finite ha hb]
  split
  next h => rw [h, hzero h, rne64_zero oneUnits_pos, Bool.false_and]
  next => rw [rne64, roundUnits_mul_oneUnits]

/-- The formula of R133, left to right. -/
theorem temp_eq (raw : Half) :
    temp raw = fsub (fdiv (fmul (f64 175) (f64 raw.toNat)) (f64 65535)) (f64 45) := rfl

/-- The formula of R134, left to right. -/
theorem hum_eq (raw : Half) : hum raw = fdiv (fmul (f64 100) (f64 raw.toNat)) (f64 65535) := rfl

/-- Both formulas begin with a small factor times the count, which binary64 holds exactly. -/
theorem scaledCount_lt {c : Nat} (hc : c < 2 ^ 37) (raw : Half) : c * raw.toNat < 2 ^ 53 :=
  (Nat.mul_lt_mul'' hc raw.isLt).trans_eq (pow_add 2 37 16).symm

theorem fmul_f64_count {c : Nat} (hc : c < 2 ^ 37) (raw : Half) :
    fmul (f64 c) (f64 raw.toNat) = f64 (c * raw.toNat) := by
  have hraw : raw.toNat < 2 ^ 16 := raw.isLt
  exact fmul_f64 (by omega) (by omega)

/-- The product of the formulas is exact. -/
theorem units_fmul_count {c : Nat} (hc : c < 2 ^ 37) (raw : Half) :
    units (fmul (f64 c) (f64 raw.toNat)) = c * raw.toNat * oneUnits := by
  rw [fmul_f64_count hc, units_f64 (scaledCount_lt hc raw), Nat.cast_mul]

/-- The quotient of the formulas is rounded once. -/
theorem fdiv_fmul_count {c : Nat} (hc : c < 2 ^ 37) (raw : Half) :
    fdiv (fmul (f64 c) (f64 raw.toNat)) (f64 65535) = rne64 (c * raw.toNat) 65535 := by
  rw [fmul_f64_count hc, fdiv_f64 (scaledCount_lt hc raw) (by decide) (by decide), Nat.cast_mul]

/-- Settles O23: the quotient is a finite nonnegative `RNE64`, from which 45 is taken in one rounding. -/
theorem temperatureIsTheTwiceRoundedFormula : Obligations.TemperatureIsTheTwiceRoundedFormula := by
  intro raw
  have hraw : raw.toNat < 2 ^ 16 := raw.isLt
  refine ⟨temp_eq raw, by omega, units_fmul_count (c := 175) (by decide) raw, ?twiceRounded⟩
  case twiceRounded =>
    have hquot : fdiv (fmul (f64 175) (f64 raw.toNat)) (f64 65535) = rne64 (175 * raw.toNat) 65535 :=
      fdiv_fmul_count (c := 175) (by decide) raw
    have hfin : isFinite (rne64 (175 * raw.toNat) 65535) = true :=
      mod_cast isFinite_rne64_natCast (scaledCount_lt (c := 175) (by decide) raw) (by decide)
    have hmsb : (rne64 (175 * raw.toNat) 65535).msb = false :=
      mod_cast msb_rne64_natCast (175 * raw.toNat) 65535
    have h45 : units (f64 45) = 45 * oneUnits := units_f64 (by decide)
    rw [temp_eq, hquot, fsub_eq_rne64 hfin (isFinite_f64 (by decide)) fun _ => hmsb, h45]

/-- Settles O24: the exact product over 65535 is rounded once. -/
theorem humidityIsTheOnceRoundedQuotient : Obligations.HumidityIsTheOnceRoundedQuotient := by
  intro raw
  have hraw : raw.toNat < 2 ^ 16 := raw.isLt
  exact ⟨hum_eq raw, by omega, units_fmul_count (c := 100) (by decide) raw,
    (hum_eq raw).trans (fdiv_fmul_count (c := 100) (by decide) raw)⟩

end Sys2Proof.Machine
end

section
/-! The measurement decoder (41_measurement_decoder.md R131, R136, R137): big-endian counts, MDEC's words, and
the four results that MDEC writes, each field's from its own three bytes. -/

namespace Sys2Proof.Machine

theorem bigEndian16_toNat (hi lo : Byte) : (bigEndian16 hi lo).toNat = 256 * hi.toNat + lo.toNat := by
  rw [bigEndian16, BitVec.toNat_append, ← Nat.shiftLeft_add_eq_or_of_lt lo.isLt, Nat.shiftLeft_eq, Nat.mul_comm]

theorem bigEndian16_high (hi lo : Byte) : (bigEndian16 hi lo).extractLsb 15 8 = hi :=
  BitVec.extractLsb'_append_eq_left

theorem bigEndian16_low (hi lo : Byte) : (bigEndian16 hi lo).extractLsb 7 0 = lo :=
  BitVec.extractLsb'_append_eq_right

/-- Settles O17: both counts and the status word are `bigEndian16` of their two bytes. -/
theorem countsAndStatusWordAreBigEndian : Obligations.CountsAndStatusWordAreBigEndian :=
  ⟨fun b0 b1 => ⟨bigEndian16_toNat b0 b1, bigEndian16_high b0 b1, bigEndian16_low b0 b1⟩,
    fun b3 b4 => ⟨bigEndian16_toNat b3 b4, bigEndian16_high b3 b4, bigEndian16_low b3 b4⟩,
    fun b0 b1 => ⟨bigEndian16_high b0 b1, bigEndian16_low b0 b1⟩⟩

/-- A word of MDEC's row decodes to it, with its six bytes as the frame (30_encoding.md R83, R84). -/
theorem decode_mdec_of_row {w : Word} (h : w &&& 0xFFFF000000000000 = 0x3000000000000000) :
    decode w = .legal (.mdec (w.extractLsb 47 40) (w.extractLsb 39 32) (w.extractLsb 31 24)
      (w.extractLsb 23 16) (w.extractLsb 15 8) (w.extractLsb 7 0)) := by
  obtain ⟨b0, b1, b2, b3, b4, b5, hdec⟩ := (decode_mdec_iff w).mpr h
  obtain ⟨-, hmdec, -⟩ := operandBytesComeFromTheirBits
  obtain ⟨rfl, rfl, rfl, rfl, rfl, rfl⟩ := hmdec w b0 b1 b2 b3 b4 b5 hdec
  exact hdec

theorem tripletMatches_eq_decide (b0 b1 c : Byte) : tripletMatches b0 b1 c = decide (crc8 [b0, b1] = c) :=
  beq_eq_decide ..

/-- The sentinel of R135 stands in for the value where the check fails. -/
theorem gated_decide (p : Prop) [Decidable p] (v : F64) :
    gated (decide p) v = if p then v else 0x7FF8000000000000 := by
  simp only [gated, decide_eq_true_eq, Config.nanBits]

/-- MDEC's effect as R136 writes it, register by register. -/
theorem exec_mdec_registers (b0 b1 b2 b3 b4 b5 : Byte) (s : State) :
    exec (.mdec b0 b1 b2 b3 b4 b5) s = .next { s with
      mv := true
      tOk := some (decide (crc8 [b0, b1] = b2))
      tVal := some (if crc8 [b0, b1] = b2 then temp (b0 ++ b1) else 0x7FF8000000000000)
      hOk := some (decide (crc8 [b3, b4] = b5))
      hVal := some (if crc8 [b3, b4] = b5 then hum (b3 ++ b4) else 0x7FF8000000000000) } := by
  simp only [exec_mdec, tripletMatches_eq_decide, gated_decide, State.writeMeasurement]

/-- The CRC of two zero bytes is not zero, so a frame of zeros fails both checks. -/
theorem crc8_zeros : crc8 [0x00, 0x00] = 0x81 := by
  have hfirst : crcByte 0xFF 0x00 = 0xAC := by decide
  have hsecond : crcByte 0xAC 0x00 = 0x81 := by decide
  rw [crc8, List.foldl_cons, List.foldl_cons, List.foldl_nil, Config.crcInit, hfirst, hsecond]

/-- Settles O18: MDEC's row, its writes, and both checks of the zero frame by `crc8_zeros`. -/
theorem mdecDecodesBothFields : Obligations.MdecDecodesBothFields := by
  refine ⟨fun w => decode_mdec_of_row, exec_mdec_registers, crc8_zeros, fun s => ?zeros⟩
  case zeros =>
    have hne : crc8 [0, 0] ≠ 0 := crc8_zeros ▸ by decide
    simp only [exec_mdec_registers, hne, decide_false, if_false]

/-- MDEC's four results, each a function of its own field's three bytes (R137). -/
theorem mdec_results {b0 b1 b2 b3 b4 b5 : Byte} {s t : State} (h : exec (.mdec b0 b1 b2 b3 b4 b5) s = .next t) :
    (t.tOk = some (tripletMatches b0 b1 b2) ∧
      t.tVal = some (gated (tripletMatches b0 b1 b2) (temp (b0 ++ b1)))) ∧
    (t.hOk = some (tripletMatches b3 b4 b5) ∧
      t.hVal = some (gated (tripletMatches b3 b4 b5) (hum (b3 ++ b4)))) := by
  rw [exec_mdec, Host.Outcome.next.injEq] at h
  subst h
  exact ⟨⟨rfl, rfl⟩, rfl, rfl⟩

/-- Settles O19: both runs' results are the same function of the shared bytes. -/
theorem mdecFieldsAreIndependent : Obligations.MdecFieldsAreIndependent := by
  refine ⟨fun b0 b1 b2 b3 b4 b5 c3 c4 c5 s s' t t' h h' => ?temperature,
    fun b0 b1 b2 c0 c1 c2 b3 b4 b5 s s' t t' h h' => ?humidity⟩
  case temperature =>
    obtain ⟨⟨hok, hval⟩, -⟩ := mdec_results h
    obtain ⟨⟨hok', hval'⟩, -⟩ := mdec_results h'
    exact ⟨hok.trans hok'.symm, hval.trans hval'.symm⟩
  case humidity =>
    obtain ⟨-, hok, hval⟩ := mdec_results h
    obtain ⟨-, hok', hval'⟩ := mdec_results h'
    exact ⟨hok.trans hok'.symm, hval.trans hval'.symm⟩

end Sys2Proof.Machine
end

section
/-! The status extractor (42_status_extractor.md R161 to R164): SDEC's words, what it writes on a match and on a
mismatch, and the predicates as mask tests of the word shown. -/

namespace Sys2Proof.Machine

/-- A word of SDEC's row decodes to it, with its three bytes as the frame (30_encoding.md R83, R84). -/
theorem decode_sdec_of_row {w : Word} (h : w &&& 0xFFFFFFFFFF000000 = 0x4000000000000000) :
    decode w = .legal (.sdec (w.extractLsb 23 16) (w.extractLsb 15 8) (w.extractLsb 7 0)) := by
  obtain ⟨b0, b1, b2, hdec⟩ := (decode_sdec_iff w).mpr h
  obtain ⟨-, -, hsdec⟩ := operandBytesComeFromTheirBits
  obtain ⟨rfl, rfl, rfl⟩ := hsdec w b0 b1 b2 hdec
  exact hdec

/-- SDEC's effect as R161 writes it, register by register. -/
theorem exec_sdec_registers (b0 b1 b2 : Byte) (s : State) :
    exec (.sdec b0 b1 b2) s = .next { s with
      sv := true
      stOk := some (decide (crc8 [b0, b1] = b2))
      stWord := if crc8 [b0, b1] = b2 then some (b0 ++ b1) else none } := by
  simp only [exec_sdec, tripletMatches_eq_decide, State.writeStatus, decide_eq_true_eq]

theorem exec_sdec_of_match {b0 b1 b2 : Byte} (h : crc8 [b0, b1] = b2) (s : State) :
    exec (.sdec b0 b1 b2) s = .next (s.writeStatus true (b0 ++ b1)) := by
  subst h
  exact exec_sdec_crc8 b0 b1 s

theorem exec_sdec_of_mismatch {b0 b1 b2 : Byte} (h : crc8 [b0, b1] ≠ b2) (s : State) :
    exec (.sdec b0 b1 b2) s = .next (s.writeStatus false (b0 ++ b1)) := by
  rw [exec_sdec, tripletMatches_eq_decide, decide_eq_false h]

/-- A mismatch keeps no bit of the word (10_state.md R27). -/
theorem State.writeStatus_false_eq (s : State) (v w : Half) : s.writeStatus false v = s.writeStatus false w := rfl

theorem stState_writeStatus_true (s : State) (w : Half) : stState (s.writeStatus true w) = .present := rfl

theorem stState_writeStatus_false (s : State) (w : Half) : stState (s.writeStatus false w) = .absent := rfl

theorem Predicate.bit_lt (p : Predicate) : p.bit < 16 := by
  cases p <;> decide

theorem Predicate.mask_eq_twoPow (p : Predicate) : p.mask = BitVec.twoPow 16 p.bit := by
  cases p <;> rfl

/-- A predicate's mask test is the test of its one bit (42_status_extractor.md R163). -/
theorem Predicate.and_mask_ne_zero_iff (p : Predicate) (w : Half) : w &&& p.mask ≠ 0 ↔ w.getLsbD p.bit = true := by
  have hmask : BitVec.twoPow 16 p.bit ≠ 0 := by
    rw [← p.mask_eq_twoPow]
    cases p <;> decide
  rw [p.mask_eq_twoPow, BitVec.and_twoPow]
  split
  next hset => exact iff_of_true hmask hset
  next hclear => exact iff_of_false (· rfl) hclear

/-- While the status is PRESENT, a predicate is the mask test of the word (42_status_extractor.md R163). -/
theorem outPred_of_present {s : State} {w : Half} (p : Predicate) (h : stState s = .present)
    (hw : s.stWord = some w) : outPred p s = if w &&& p.mask ≠ 0 then .isTrue else .isFalse := by
  rw [outPred_of_some p ((outStatus_of_present h).trans hw)]
  exact if_congr (p.and_mask_ne_zero_iff w).symm rfl rfl

/-- A predicate propagates the failure of its status read (42_status_extractor.md R164). -/
theorem outPred_of_not_present {s : State} (p : Predicate) (h : stState s ≠ .present) : outPred p s = .unknown :=
  outPred_of_none p (outStatus_of_not_present h)

theorem outPred_writeStatus_true (p : Predicate) (s : State) (w : Half) :
    outPred p (s.writeStatus true w) = if w.getLsbD p.bit then .isTrue else .isFalse :=
  outPred_of_some p (outStatus_writeStatus_true s w)

theorem outPred_writeStatus_zeros (p : Predicate) (s : State) : outPred p (s.writeStatus true 0x0000) = .isFalse := by
  rw [outPred_writeStatus_true, BitVec.ofNat_eq_ofNat, BitVec.getLsbD_zero, if_neg Bool.false_ne_true]

theorem outPred_writeStatus_ones (p : Predicate) (s : State) : outPred p (s.writeStatus true 0xFFFF) = .isTrue := by
  have hbit : (BitVec.allOnes 16).getLsbD p.bit = true := by
    rw [BitVec.getLsbD_allOnes, decide_eq_true p.bit_lt]
  exact (outPred_writeStatus_true p s _).trans (if_pos hbit)

/-- Settles O28: SDEC's row and its writes; the words 0x0000 and 0xFFFF have no bit and every bit that a
predicate reads. -/
theorem sdecKeepsTheWordOnlyWhenItsCrcMatches : Obligations.SdecKeepsTheWordOnlyWhenItsCrcMatches :=
  ⟨fun _ => decode_sdec_of_row, exec_sdec_registers,
    fun _ s h => ⟨_, exec_sdec_of_match h s, stState_writeStatus_true s _, (outPred_writeStatus_zeros · s)⟩,
    fun _ s h => ⟨_, exec_sdec_of_match h s, stState_writeStatus_true s _, rfl, (outPred_writeStatus_ones · s)⟩⟩

/-- Settles O29: a mismatch writes ABSENT and nothing of the frame, and without PRESENT nothing is shown. -/
theorem aMismatchingStatusShowsNothing : Obligations.AMismatchingStatusShowsNothing := by
  refine ⟨fun b0 b1 b2 s h => ?absent, fun b0 b1 b2 c0 c1 c2 s hb hc => ?sameState, fun s h => ?notPresent⟩
  case absent =>
    have habsent : stState (s.writeStatus false (b0 ++ b1)) = .absent := stState_writeStatus_false s _
    have hnot : stState (s.writeStatus false (b0 ++ b1)) ≠ .present := habsent ▸ by decide
    exact ⟨_, exec_sdec_of_mismatch h s, habsent, outStatus_of_not_present hnot, (outPred_of_not_present · hnot)⟩
  case sameState =>
    rw [exec_sdec_of_mismatch hb, exec_sdec_of_mismatch hc, s.writeStatus_false_eq (b0 ++ b1) (c0 ++ c1)]
  case notPresent =>
    refine ⟨outStatus_of_not_present h, fun p => ?_⟩
    have hunknown : outPred p s = .unknown := outPred_of_not_present p h
    exact ⟨hunknown, (pinPredKnown_eq_false_iff p s).mpr hunknown⟩

/-- Settles O30: the seven instances of `outPred_of_present`. -/
theorem predicatesAreMaskTests : Obligations.PredicatesAreMaskTests := by
  refine ⟨fun s w hpresent hw => ?masks, fun s p => outPred_of_not_present p⟩
  case masks =>
    have hmask (p : Predicate) : outPred p s = if w &&& p.mask ≠ 0 then .isTrue else .isFalse :=
      outPred_of_present p hpresent hw
    exact ⟨hmask .dataCrcError, hmask .commandError, hmask .resetDetected, hmask .temperatureAlert,
      hmask .humidityAlert, hmask .heaterActive, hmask .alertPending⟩

end Sys2Proof.Machine
end

section
/-! The control family (43_control.md R190, R191): which words are NOP and which are illegal under each opcode, the
two effects on the state, and the verdict on a state with `ERR` = 1. -/

namespace Sys2Proof.Machine

open Sys2Proof.Safety

theorem exec_nop (s : State) : exec .nop s = .next s := rfl

/-- Under NOP's opcode only the all-zero word is legal: a further 1 stands in the reserved bits or in the operand,
and either makes the word illegal. -/
theorem decode_illegal_of_nop_unused {w : Word} (hop : w.extractLsb 63 60 = 0) (hne : w ≠ 0) :
    ∃ why, decode w = .illegal why := by
  by_cases hrsv : rsvField w = 0
  · have hopnd : opndField w ≠ 0 := fun hzero => hne ((word_eq_iff_fields w 0).mpr ⟨hop, hrsv, hzero⟩)
    have hoperand : ∃ why, decodeOperand (opField w) (opndField w) = .illegal why :=
      (decodeOperand_illegal_iff _ _).mpr (.inr (.inl ⟨hop, hopnd⟩))
    exact (decode_illegal_iff w).mpr (.inr hoperand)
  · exact ⟨_, decode_of_rsv_ne_zero hrsv⟩

/-- MDEC uses every operand bit, so under its opcode the reserved bits alone decide (30_encoding.md R84). -/
theorem decode_mdec_of_op {w : Word} (hop : w.extractLsb 63 60 = 3) (hrsv : w.extractLsb 59 48 = 0) :
    ∃ b0 b1 b2 b3 b4 b5, decode w = .legal (.mdec b0 b1 b2 b3 b4 b5) := by
  have hopField : opField w = 3#4 := hop
  rw [decode_of_rsv_zero hrsv, hopField, decodeOperand_mdec]
  exact ⟨_, _, _, _, _, _, rfl⟩

/-- The kinds of illegal word that R191 lists under "Encoding". -/
theorem decode_illegal_of_kind {w : Word}
    (h : 5 ≤ (w.extractLsb 63 60).toNat ∨ w.extractLsb 59 48 ≠ 0 ∨
      ((w.extractLsb 63 60 = 0 ∨ w.extractLsb 63 60 = 1) ∧ w.extractLsb 47 0 ≠ 0) ∨
      (w.extractLsb 63 60 = 2 ∧ w.extractLsb 47 8 ≠ 0) ∨
      (w.extractLsb 63 60 = 4 ∧ w.extractLsb 47 24 ≠ 0)) :
    ∃ why, decode w = .illegal why := by
  obtain ⟨hwords, -⟩ := legalWordsAreTheTableRows
  obtain ⟨-, -, -, -, -, hillegal⟩ := hwords w
  rw [or_and_right, or_assoc] at h
  exact hillegal.mpr h

/-- An illegal word after another changes nothing. -/
theorem State.raiseIllegal_of_err {s : State} (h : s.err = true) (w : Word) : s.raiseIllegal w = s := by
  rw [State.raiseIllegal, ← h]

theorem judge_of_err {s : State} (h : s.err = true) : judge s = .fault .illegalWordAccepted := if_pos h

theorem judge_of_no_err {s : State} (h : s.err = false) : judge s = .next s :=
  if_neg (Bool.eq_false_iff.mp h)

/-- Settles O31: NOP's row, its effect, and that its opcode has no other word. -/
theorem nopChangesNothing : Obligations.NopChangesNothing :=
  ⟨(decode_nop_iff _).mpr (by decide), exec_nop, fun _ => decode_illegal_of_nop_unused⟩

/-- Settles O32: each kind decodes as illegal and its step raises `ERR` alone (`step_illegal`), which no operation
reads (`exec_withErr`). -/
theorem anIllegalWordSetsErrAndNothingElse : Obligations.AnIllegalWordSetsErrAndNothingElse := by
  refine ⟨fun s w rest hin hkind => ?illegal, fun w => decode_mdec_of_op, fun i s t => exec_withErr true,
    ?fromReset, fun s => judge_of_err, fun s => judge_of_no_err⟩
  case illegal =>
    obtain ⟨why, hdec⟩ := decode_illegal_of_kind hkind
    have hstep : step s = .next ((s.withInput rest).raiseIllegal w) := step_illegal hin hdec
    refine ⟨hstep, fun herr => ?repeated⟩
    case repeated =>
      have herr' : (s.withInput rest).err = true := herr
      rw [hstep, State.raiseIllegal_of_err herr']
      rfl
  case fromReset =>
    have hdec : decode 0x5000000000000000 = .illegal .unassignedOpcode := by decide
    exact step_illegal rfl hdec

end Sys2Proof.Machine
end

section
/-! The reset family (70_reset_and_hazards.md R230): the registers after reset. -/

namespace Sys2Proof.Machine

/-- Settles O40: one law of the reset state for each row of R230's table, `ACC`'s read as the value that
`ACC_RESET` is fixed at (00_scope.md R7). -/
theorem resetLeavesTheStatedRegisters : Obligations.ResetLeavesTheStatedRegisters :=
  ⟨State.reset_acc, State.reset_mv, State.reset_tOk, State.reset_hOk, State.reset_tVal, State.reset_hVal,
    State.reset_sv, State.reset_stOk, State.reset_stWord, State.reset_err⟩

end Sys2Proof.Machine
end

section
/-! Decoder and encoder as inverses (30_encoding.md sections 1 to 3), and the operand as the frame's big-endian
number (20_memory.md section 2): a built word decodes by its op and operand, and an operand is its frame's bytes put
together again, above them its unused bits. -/

namespace Sys2Proof

theorem decode_opWord (op : BitVec 4) (opnd : BitVec 48) : decode (opWord op opnd) = decodeOperand op opnd := by
  rw [decode_of_rsv_zero (rsvField_opWord op opnd), opField_opWord, opndField_opWord]

/-- Settles O1: a built word's fields are those it was built from, and a frame's bytes are read where they were
placed. -/
theorem decodeInvertsEncode : Obligations.DecodeInvertsEncode := by
  intro i
  cases i with
  | nop => exact decode_opWord 0 0
  | crcinit => exact decode_opWord 1 0
  | crcbyte d =>
    obtain ⟨hd, hunused⟩ := frameByte_one d
    rw [encode, decode_opWord]
    simp [decodeOperand_crcbyte, hd, hunused]
  | mdec b0 b1 b2 b3 b4 b5 =>
    obtain ⟨h0, h1, h2, h3, h4, h5⟩ := frameByte_six b0 b1 b2 b3 b4 b5
    rw [encode, decode_opWord]
    simp only [BitVec.ofNat_eq_ofNat, decodeOperand_mdec, h0, h1, h2, h3, h4, h5]
  | sdec b0 b1 b2 =>
    obtain ⟨h0, h1, h2, hunused⟩ := frameByte_three b0 b1 b2
    rw [encode, decode_opWord]
    simp [decodeOperand_sdec, h0, h1, h2, hunused]

/-- A frame's byte on top of the bytes after it is the operand from that byte down. -/
theorem frameByte_append_extractLsb' (n k : Nat) (opnd : BitVec 48) :
    frameByte n k opnd ++ opnd.extractLsb' 0 (8 * (n - 1 - k)) = opnd.extractLsb' 0 (8 + 8 * (n - 1 - k)) :=
  BitVec.extractLsb'_append_extractLsb'_eq_extractLsb' (Nat.zero_add _).symm

/-- Unused bits that are 0 on top of the used ones make up the operand. -/
theorem zero_append_extractLsb' {used : Nat} (h : used ≤ 48) {opnd : BitVec 48}
    (hunused : opnd.extractLsb' used (48 - used) = 0) :
    0#(48 - used) ++ opnd.extractLsb' 0 used = opnd.cast (Nat.sub_add_cancel h).symm := by
  apply BitVec.eq_of_toNat_eq
  have hbits : opnd.toNat >>> used % 2 ^ (48 - used) = 0 := by
    simpa using congrArg BitVec.toNat hunused
  have hlt : opnd.toNat >>> used < 2 ^ (48 - used) := by
    rw [Nat.shiftRight_eq_div_pow, Nat.div_lt_iff_lt_mul (by positivity), ← pow_add, Nat.sub_add_cancel h]
    exact opnd.isLt
  rw [Nat.mod_eq_of_lt hlt, Nat.shiftRight_eq_div_pow] at hbits
  simp [Nat.mod_eq_of_lt ((Nat.div_eq_zero_iff_lt (by positivity)).mp hbits)]

theorem opnd_eq_frame_one {opnd : BitVec 48} (hunused : opnd.extractLsb' 8 40 = 0) :
    0#40 ++ frameByte 1 0 opnd = opnd :=
  zero_append_extractLsb' (used := 8) (by decide) hunused

theorem frame_three_eq (opnd : BitVec 48) :
    frameByte 3 0 opnd ++ (frameByte 3 1 opnd ++ frameByte 3 2 opnd) = opnd.extractLsb' 0 24 :=
  calc frameByte 3 0 opnd ++ (frameByte 3 1 opnd ++ frameByte 3 2 opnd)
      = frameByte 3 0 opnd ++ opnd.extractLsb' 0 16 :=
        congrArg (frameByte 3 0 opnd ++ ·) (frameByte_append_extractLsb' 3 1 opnd)
    _ = opnd.extractLsb' 0 24 := frameByte_append_extractLsb' 3 0 opnd

theorem opnd_eq_frame_three {opnd : BitVec 48} (hunused : opnd.extractLsb' 24 24 = 0) :
    0#24 ++ (frameByte 3 0 opnd ++ (frameByte 3 1 opnd ++ frameByte 3 2 opnd)) = opnd := by
  rw [frame_three_eq]
  exact zero_append_extractLsb' (used := 24) (by decide) hunused

theorem opnd_eq_frame_six (opnd : BitVec 48) :
    frameByte 6 0 opnd ++ (frameByte 6 1 opnd ++ (frameByte 6 2 opnd ++ (frameByte 6 3 opnd ++
      (frameByte 6 4 opnd ++ frameByte 6 5 opnd)))) = opnd :=
  calc frameByte 6 0 opnd ++ (frameByte 6 1 opnd ++ (frameByte 6 2 opnd ++ (frameByte 6 3 opnd ++
        (frameByte 6 4 opnd ++ frameByte 6 5 opnd))))
      = frameByte 6 0 opnd ++ (frameByte 6 1 opnd ++ (frameByte 6 2 opnd ++ opnd.extractLsb' 0 24)) :=
        congrArg (fun x : BitVec 24 => frameByte 6 0 opnd ++ (frameByte 6 1 opnd ++ (frameByte 6 2 opnd ++ x)))
          (frame_three_eq opnd)
    _ = frameByte 6 0 opnd ++ (frameByte 6 1 opnd ++ opnd.extractLsb' 0 32) :=
        congrArg (fun x : BitVec 32 => frameByte 6 0 opnd ++ (frameByte 6 1 opnd ++ x))
          (frameByte_append_extractLsb' 6 2 opnd)
    _ = frameByte 6 0 opnd ++ opnd.extractLsb' 0 40 :=
        congrArg (frameByte 6 0 opnd ++ ·) (frameByte_append_extractLsb' 6 1 opnd)
    _ = opnd.extractLsb' 0 48 := frameByte_append_extractLsb' 6 0 opnd
    _ = opnd := BitVec.extractLsb'_eq_self

theorem opWord_fields {w : Word} (hrsv : rsvField w = 0) : opWord (opField w) (opndField w) = w := by
  rw [word_eq_iff_fields, opField_opWord, rsvField_opWord, opndField_opWord]
  exact ⟨rfl, hrsv.symm, rfl⟩

/-- An opcode and operand that decode to an operation are those of its word. -/
theorem encode_of_decodeOperand {op : BitVec 4} {opnd : BitVec 48} {i : Instr}
    (h : decodeOperand op opnd = .legal i) : encode i = opWord op opnd := by
  rcases (decodeOperand_eq_legal_iff op opnd i).mp h with ⟨rfl, rfl, rfl⟩ | ⟨rfl, rfl, rfl⟩ |
    ⟨rfl, hunused, rfl⟩ | ⟨rfl, rfl⟩ | ⟨rfl, hunused, rfl⟩
  · rfl
  · rfl
  · exact congrArg (opWord 2) (opnd_eq_frame_one hunused)
  · exact congrArg (opWord 3) (opnd_eq_frame_six opnd)
  · exact congrArg (opWord 4) (opnd_eq_frame_three hunused)

/-- Settles O2: a legal word's reserved bits are 0, and its op and operand are those of its operation's word. -/
theorem encodeInvertsDecode : Obligations.EncodeInvertsDecode := by
  intro w i h
  obtain ⟨hrsv, hdec⟩ := decode_legal_fields h
  rw [encode_of_decodeOperand hdec, opWord_fields hrsv]

/-- What stands on top of `n` bits weighs `2 ^ n`. -/
theorem append_toNat {m n : Nat} (x : BitVec m) (y : BitVec n) : (x ++ y).toNat = x.toNat * 2 ^ n + y.toNat := by
  rw [BitVec.toNat_append, ← Nat.shiftLeft_add_eq_or_of_lt y.isLt, Nat.shiftLeft_eq]

/-- Settles O5: each byte of the operand weighs what the bits below it weigh together. -/
theorem operandReadsAsTheBigEndianFrame : Obligations.OperandReadsAsTheBigEndianFrame := by
  refine ⟨fun d => ?_, fun b0 b1 b2 b3 b4 b5 => ?_, fun b0 b1 b2 => ?_⟩ <;>
    simp only [encode, opndField_opWord, append_toNat, BitVec.toNat_zero] <;> omega

end Sys2Proof
end

section
/-! Rounding to binary64 (00_scope.md R12): the value of `RNE64` as kept digits at their place, that no finite
binary64 is nearer, how far it can be off, and the three operations as one rounding of their exact result. -/

namespace Sys2Proof.Machine

/-- The sign that `RNE64` packs, as a factor. -/
def signOf (num : Int) : Int := if num < 0 then -1 else 1

theorem signOf_mul_self (num : Int) : signOf num * num = num.natAbs := by
  unfold signOf
  split <;> omega

theorem signOf_mul_natAbs (num : Int) : signOf num * num.natAbs = num := by
  unfold signOf
  split <;> omega

theorem abs_signOf_mul (num x : Int) : |signOf num * x| = |x| := by
  unfold signOf
  split <;> simp

theorem signOf_mul_signOf_mul (num x : Int) : signOf num * (signOf num * x) = x := by
  unfold signOf
  split <;> simp

/-- The digits that rounding n / d units to binary64 keeps. -/
def roundDigits (n d : Nat) : Nat := roundHalfEven n (d * 2 ^ roundShift n d)

/-- A packed magnitude is finite exactly when it is not that of infinity. -/
theorem isFinite_packF64_iff (neg : Bool) {mag : Nat} (h : mag ≤ 2047 * 2 ^ 52) :
    isFinite (packF64 neg mag) = true ↔ mag < 2047 * 2 ^ 52 := by
  refine ⟨fun hfin => ?_, isFinite_packF64 neg⟩
  rw [isFinite, expField_packF64 neg (by omega), bne_iff_ne] at hfin
  omega

theorem isFinite_rne64_iff (num : Int) (den : Nat) :
    isFinite (rne64 num den) = true ↔ roundUnits (num.natAbs * oneUnits) den < 2047 * 2 ^ 52 :=
  isFinite_packF64_iff _ (roundUnits_le _ _)

theorem units_packF64 (neg : Bool) (mag : Nat) :
    units (packF64 neg mag) = (if neg then -1 else 1) * magUnits (packF64 neg mag) := by
  rw [units, msb_packF64]
  split <;> simp

/-- The value of a finite `RNE64`: the kept digits at their place, under the sign. -/
theorem units_rne64 {num : Int} {den : Nat} (hd : 0 < den) (hfin : isFinite (rne64 num den) = true) :
    units (rne64 num den) = signOf num *
      (roundDigits (num.natAbs * oneUnits) den * 2 ^ roundShift (num.natAbs * oneUnits) den) := by
  have hbits := (isFinite_rne64_iff num den).mp hfin
  rw [rne64, units_packF64, magUnits_packF64_roundUnits _ hd hbits, signOf, roundDigits]
  simp only [decide_eq_true_eq, Nat.cast_mul, Nat.cast_pow, Nat.cast_ofNat]

/-- The distance of a value from the exact one is that of the magnitudes, the value turned by the sign. -/
theorem abs_sub_eq_signOf (num x : Int) (den : Nat) :
    |num * oneUnits - x * den| = |((num.natAbs * oneUnits : Nat) : Int) - signOf num * x * den| := by
  have hnum : signOf num * (num * oneUnits) = (num.natAbs * oneUnits : Nat) := by
    rw [← mul_assoc, signOf_mul_self, Nat.cast_mul]
  rw [← abs_signOf_mul num (_ - _), mul_sub, hnum, mul_assoc]

/-- The distance of a finite `RNE64` from the exact value, by the kept digits. -/
theorem abs_sub_units_rne64 {num : Int} {den : Nat} (hd : 0 < den) (hfin : isFinite (rne64 num den) = true) :
    |num * oneUnits - units (rne64 num den) * den| =
      |((num.natAbs * oneUnits : Nat) : Int) - roundDigits (num.natAbs * oneUnits) den *
        (den * 2 ^ roundShift (num.natAbs * oneUnits) den : Nat)| := by
  rw [abs_sub_eq_signOf, units_rne64 hd hfin, signOf_mul_signOf_mul]
  push_cast
  ring_nf

/-- What `roundHalfEven_near` says, as a distance. -/
theorem roundHalfEven_dist (n d : Nat) (hd : 0 < d) :
    2 * |(n : Int) - roundHalfEven n d * d| ≤ d ∧
    (2 * |(n : Int) - roundHalfEven n d * d| = d → roundHalfEven n d % 2 = 0) := by
  obtain ⟨hlo, hhi, htieLo, htieHi⟩ := roundHalfEven_near n d hd
  generalize roundHalfEven n d = m at *
  have e₁ : (2 * m + 1) * d = 2 * (m * d) + d := by ring
  have e₂ : 2 * m * d = 2 * (m * d) := by ring
  rw [e₁] at hlo htieLo
  rw [e₂] at hhi htieHi
  rw [← Nat.cast_mul]
  generalize m * d = p at *
  rcases abs_cases ((n : Int) - p) with ⟨habs, -⟩ | ⟨habs, -⟩ <;> rw [habs] <;>
    exact ⟨by omega, fun h => by omega⟩

/-- No whole number is nearer to n / d, and one as near means that the rounded one is even. -/
theorem roundHalfEven_nearest (n d : Nat) (hd : 0 < d) (z : Int) :
    |(n : Int) - roundHalfEven n d * d| ≤ |(n : Int) - z * d| ∧
    (|(n : Int) - roundHalfEven n d * d| = |(n : Int) - z * d| → z ≠ roundHalfEven n d → roundHalfEven n d % 2 = 0) := by
  obtain ⟨hnear, htie⟩ := roundHalfEven_dist n d hd
  generalize roundHalfEven n d = m at *
  by_cases hz : z = m
  · subst hz
    exact ⟨le_rfl, fun _ hne => absurd rfl hne⟩
  · have hgap : (d : Int) ≤ |(n : Int) - m * d| + |(n : Int) - z * d| :=
      calc (d : Int) ≤ |z - m| * d := le_mul_of_one_le_left (by omega) (Int.one_le_abs (sub_ne_zero.mpr hz))
        _ = |((n : Int) - m * d) - (n - z * d)| := by
          rw [← abs_of_nonneg (Int.natCast_nonneg d), ← abs_mul, abs_of_nonneg (Int.natCast_nonneg d)]
          ring_nf
        _ ≤ |(n : Int) - m * d| + |(n : Int) - z * d| := abs_sub _ _
    exact ⟨by omega, fun heq _ => htie (by omega)⟩

/-- The finite binary64 values around a shift: multiples of its power of two, or below the values that it is for. -/
theorem two_pow_dvd_or_magUnits_lt (y : F64) (k : Nat) : 2 ^ k ∣ magUnits y ∨ 0 < k ∧ magUnits y < 2 ^ (52 + k) := by
  have hfrac : fracField y < 2 ^ 52 := (y.extractLsb' 0 52).isLt
  rcases Nat.eq_zero_or_pos k with rfl | hk
  · exact .inl (one_dvd _)
  rw [magUnits_eq]
  split
  · exact .inr ⟨hk, hfrac.trans (Nat.pow_lt_pow_right (by decide) (by omega))⟩
  · rcases Nat.lt_or_ge (expField y - 1) k with hlt | hge
    · refine .inr ⟨hk, ?_⟩
      calc (2 ^ 52 + fracField y) * 2 ^ (expField y - 1)
          < 2 ^ 53 * 2 ^ (expField y - 1) := Nat.mul_lt_mul_of_pos_right (by omega) (Nat.two_pow_pos _)
        _ = 2 ^ (53 + (expField y - 1)) := (pow_add ..).symm
        _ ≤ 2 ^ (52 + k) := Nat.pow_le_pow_right (by decide) (by omega)
    · exact .inl (Dvd.dvd.mul_left (Nat.pow_dvd_pow 2 hge) _)

theorem natAbs_units (y : F64) : (units y).natAbs = magUnits y := by
  unfold units
  split <;> simp

/-- With a shift, a value below those that the shift is for is further off than the least kept digits. -/
theorem abs_sub_lt_of_below_shift {n d : Nat} (hd : 0 < d) (hk : 0 < roundShift n d) {z : Int}
    (hlt : z.natAbs < 2 ^ (52 + roundShift n d)) :
    |(n : Int) - (2 ^ 52 : Nat) * (d * 2 ^ roundShift n d : Nat)| < |(n : Int) - z * d| := by
  have h52 : ((2 ^ 52 : Nat) : Int) * (d * 2 ^ roundShift n d : Nat) = (2 ^ (52 + roundShift n d) : Nat) * d := by
    push_cast
    ring
  have hn : 2 ^ (52 + roundShift n d) * d ≤ n := by
    rw [Nat.add_comm]
    exact (Nat.le_div_iff_mul_le hd).mp (le_div_of_roundShift_pos hk)
  have hnd : ((2 ^ (52 + roundShift n d) : Nat) : Int) * d ≤ n := by exact_mod_cast hn
  have hz : z < (2 ^ (52 + roundShift n d) : Nat) := by omega
  have hzd : z * d < (2 ^ (52 + roundShift n d) : Nat) * d := Int.mul_lt_mul_of_pos_right hz (by omega)
  rw [h52, abs_of_nonneg (by omega), abs_of_nonneg (by omega)]
  omega

/-- No multiple of the shift's power and no value below those that the shift is for is nearer than the kept digits,
and one as near means that the digits are even. -/
theorem roundDigits_nearest {n d : Nat} (hd : 0 < d) {z : Int}
    (hz : 2 ^ roundShift n d ∣ z.natAbs ∨ 0 < roundShift n d ∧ z.natAbs < 2 ^ (52 + roundShift n d)) :
    |(n : Int) - roundDigits n d * (d * 2 ^ roundShift n d : Nat)| ≤ |(n : Int) - z * d| ∧
    (|(n : Int) - roundDigits n d * (d * 2 ^ roundShift n d : Nat)| = |(n : Int) - z * d| →
      z ≠ roundDigits n d * 2 ^ roundShift n d → roundDigits n d % 2 = 0) := by
  have hnearest := roundHalfEven_nearest n (d * 2 ^ roundShift n d) (Nat.mul_pos hd (Nat.two_pow_pos _))
  rw [← roundDigits] at hnearest
  rcases hz with hdvd | ⟨hk, hlt⟩
  case inl =>
    obtain ⟨q, rfl⟩ := Int.natCast_dvd.mpr hdvd
    have hq : ((2 ^ roundShift n d : Nat) : Int) * q * d = q * (d * 2 ^ roundShift n d : Nat) := by
      push_cast
      ring
    rw [hq]
    refine ⟨(hnearest q).1, fun heq hne => (hnearest q).2 heq ?_⟩
    rintro rfl
    exact hne (by push_cast; ring)
  case inr =>
    have hbelow := abs_sub_lt_of_below_shift hd hk hlt
    have hstrict := (hnearest (2 ^ 52 : Nat)).1.trans_lt hbelow
    exact ⟨hstrict.le, fun heq => absurd heq hstrict.ne⟩

theorem getLsbD_packF64_zero (neg : Bool) (mag : Nat) : (packF64 neg mag).getLsbD 0 = decide (mag % 2 = 1) := by
  rw [packF64, BitVec.getLsbD_append, if_pos (by decide), BitVec.getLsbD_ofNat, Nat.testBit_zero]
  rfl

/-- The last fraction bit of a finite `RNE64` is that of its digits. -/
theorem getLsbD_rne64_zero {num : Int} {den : Nat} (hfin : isFinite (rne64 num den) = true)
    (heven : roundDigits (num.natAbs * oneUnits) den % 2 = 0) : (rne64 num den).getLsbD 0 = false := by
  have hbits := (isFinite_rne64_iff num den).mp hfin
  rw [rne64, getLsbD_packF64_zero, roundUnits_eq]
  rw [roundUnits_eq] at hbits
  rw [roundDigits] at heven
  exact decide_eq_false (by omega)

/-- Settles O21: under the sign of the rational the distances are those of magnitudes, and a finite binary64 is a
multiple of the shift's power or lies below the values that the shift is for. -/
theorem roundingIsToNearestTiesToEven : Obligations.RoundingIsToNearestTiesToEven := by
  intro num den hd hfin y _
  have hgrid : (signOf num * units y).natAbs = magUnits y := by
    rw [← natAbs_units, ← Int.natCast_inj, Int.natCast_natAbs, Int.natCast_natAbs, abs_signOf_mul]
  obtain ⟨hle, htie⟩ := roundDigits_nearest hd (hgrid ▸ two_pow_dvd_or_magUnits_lt y _)
  rw [abs_sub_units_rne64 hd hfin, abs_sub_eq_signOf]
  refine ⟨hle, fun heq hne => getLsbD_rne64_zero hfin (htie heq fun hz => hne ?_)⟩
  rw [units_rne64 hd hfin, ← hz, signOf_mul_signOf_mul]

/-- The sign bit of a binary64 other than zero is the sign of its value. -/
theorem msb_eq_decide_units_neg {x : F64} (hne : units x ≠ 0) : x.msb = decide (units x < 0) := by
  have hmag : 0 < magUnits x := by
    rw [← natAbs_units]
    omega
  unfold units
  split
  next h => exact h.trans (decide_eq_true (by omega)).symm
  next h => exact (Bool.not_eq_true _ ▸ h).trans (decide_eq_false (by omega)).symm

theorem decide_mul_neg {m n : Int} (hm : m ≠ 0) (hn : n ≠ 0) :
    decide (m * n < 0) = (decide (m < 0) ^^ decide (n < 0)) := by
  rcases lt_or_gt_of_ne hm with hm | hm <;> rcases lt_or_gt_of_ne hn with hn | hn
  · rw [decide_eq_true hm, decide_eq_true hn, decide_eq_false (mul_pos_of_neg_of_neg hm hn).not_gt, Bool.xor_self]
  · rw [decide_eq_true hm, decide_eq_false hn.not_gt, decide_eq_true (mul_neg_of_neg_of_pos hm hn), Bool.xor_false]
  · rw [decide_eq_false hm.not_gt, decide_eq_true hn, decide_eq_true (mul_neg_of_pos_of_neg hm hn), Bool.false_xor]
  · rw [decide_eq_false hm.not_gt, decide_eq_false hn.not_gt, decide_eq_false (mul_pos hm hn).not_gt, Bool.xor_self]

/-- `fmul` of finite operands other than zero is their product rounded once. -/
theorem fmul_eq_rne64 {a b : F64} (ha : isFinite a = true) (hb : isFinite b = true) (hna : units a ≠ 0)
    (hnb : units b ≠ 0) : fmul a b = rne64 (units a * units b) (oneUnits * oneUnits) := by
  rw [fmul_of_finite ha hb, rne64, decide_mul_neg hna hnb, ← msb_eq_decide_units_neg hna,
    ← msb_eq_decide_units_neg hnb, Int.natAbs_mul, natAbs_units, natAbs_units,
    roundUnits_scale oneUnits_pos oneUnits_pos]

/-- `fdiv` of finite operands other than zero: the exact quotient of the magnitudes is rounded once. -/
theorem fdiv_eq_packF64 {a b : F64} (ha : isFinite a = true) (hb : isFinite b = true) (hna : units a ≠ 0)
    (hnb : units b ≠ 0) : fdiv a b = packF64 (decide (units a < 0) ^^ decide (units b < 0))
      (roundUnits ((units a).natAbs * oneUnits) (units b).natAbs) := by
  have hmag : magUnits b ≠ 0 := natAbs_units b ▸ Int.natAbs_ne_zero.mpr hnb
  rw [fdiv_of_finite ha hb hmag, msb_eq_decide_units_neg hna, msb_eq_decide_units_neg hnb, natAbs_units, natAbs_units]

/-- Settles O22: under the operations' equations on finite operands, the sign of the exact result and its magnitude's
fraction are those of `RNE64`, the fraction up to a common factor. -/
theorem floatOperationsRoundTheExactResult : Obligations.FloatOperationsRoundTheExactResult := by
  intro a b ha hb
  refine ⟨fun hne => fmul_eq_rne64 ha hb (left_ne_zero_of_mul hne) (right_ne_zero_of_mul hne),
    fun hna hpos => ?divPos, fun hna hneg => ?divNeg, fun hne => fsub_eq_rne64 ha hb fun hzero => absurd hzero hne⟩
  case divPos =>
    rw [fdiv_eq_packF64 ha hb hna hpos.ne', decide_eq_false hpos.not_gt, Bool.xor_false, rne64]
  case divNeg =>
    have hsign : decide (-units a < 0) = !decide (units a < 0) := by
      rw [← decide_not]
      exact decide_eq_decide.mpr (by omega)
    rw [fdiv_eq_packF64 ha hb hna hneg.ne, decide_eq_true hneg, Bool.xor_true, rne64, hsign, Int.natAbs_neg]

end Sys2Proof.Machine
end

section
/-! The transfer functions over all raw counts (41_measurement_decoder.md R138, R139): how far one rounding of a
small value is off, which is far less than the next count changes the exact value; and the exact values at the ends,
which bound every result. -/

namespace Sys2Proof.Machine

/-- A value below 2^8 is kept to 2^-45. -/
theorem two_pow_roundShift_le {n d : Nat} (h : n < 2 ^ 8 * oneUnits * d) :
    2 ^ roundShift n d * 2 ^ 45 ≤ oneUnits := by
  have hlog : Nat.log2 (n / d) < 8 + 1074 := by
    rcases eq_or_ne (n / d) 0 with hzero | hne
    · rw [hzero, Nat.log2_zero]
      decide
    · have hlt : n / d < 2 ^ 8 * oneUnits := Nat.div_lt_of_lt_mul (by rwa [Nat.mul_comm] at h)
      rw [oneUnits_eq, ← pow_add] at hlt
      generalize 1074 = e at *
      exact (Nat.log2_lt hne).mpr hlt
  have hexp : roundShift n d + 45 ≤ 1074 := by
    rw [roundShift_eq]
    omega
  rw [oneUnits_eq, ← pow_add]
  generalize 1074 = e at *
  exact Nat.pow_le_pow_right (by decide) hexp

theorem isFinite_rne64_of_lt {num : Int} {den : Nat} (hd : 0 < den) (h : num.natAbs < 2 ^ 8 * den) :
    isFinite (rne64 num den) = true := by
  have hfin : roundUnits (2 ^ 8 * oneUnits) 1 < 2047 * 2 ^ 52 := (roundShift_integer (by decide)).2
  refine (isFinite_rne64_iff num den).mpr (lt_of_le_of_lt (roundUnits_mono hd Nat.one_pos ?_) hfin)
  calc num.natAbs * oneUnits * 1 ≤ 2 ^ 8 * den * oneUnits * 1 := by gcongr
    _ = 2 ^ 8 * oneUnits * den := by ring

/-- One rounding of a value below 2^8 is off by at most 2^-46. -/
theorem abs_sub_units_rne64_le {num : Int} {den : Nat} (hd : 0 < den) (h : num.natAbs < 2 ^ 8 * den) :
    2 ^ 46 * |num * oneUnits - units (rne64 num den) * den| ≤ den * oneUnits := by
  have hn : num.natAbs * oneUnits < 2 ^ 8 * oneUnits * den := by
    rw [Nat.mul_right_comm]
    exact Nat.mul_lt_mul_of_pos_right h oneUnits_pos
  have hulp : den * (2 ^ roundShift (num.natAbs * oneUnits) den * 2 ^ 45) ≤ den * oneUnits :=
    Nat.mul_le_mul_left _ (two_pow_roundShift_le hn)
  have hdist := (roundHalfEven_dist (num.natAbs * oneUnits) (den * 2 ^ roundShift (num.natAbs * oneUnits) den)
    (Nat.mul_pos hd (Nat.two_pow_pos _))).1
  rw [abs_sub_units_rne64 hd (isFinite_rne64_of_lt hd h), roundDigits]
  rw [← Nat.mul_assoc] at hulp
  zify at hulp ⊢
  push_cast at *
  linarith

/-- A result of the formulas and its exact value x / 65535: they differ by at most 2^-45. -/
def NearExact (x v : Int) : Prop := 2 ^ 45 * |x * oneUnits - v * 65535| ≤ 65535 * oneUnits

/-- Results near different multiples of 1/65535 stand in the order of those. -/
theorem NearExact.lt {x y v w : Int} (hv : NearExact x v) (hw : NearExact y w) (hxy : x < y) : v < w := by
  have hone : (0 : Int) < oneUnits := Int.natCast_pos.mpr oneUnits_pos
  have hgap : (x + 1) * oneUnits ≤ y * oneUnits := Int.mul_le_mul_of_nonneg_right hxy hone.le
  have habsv := neg_abs_le (x * oneUnits - v * 65535)
  have habsw := le_abs_self (y * oneUnits - w * 65535)
  unfold NearExact at hv hw
  linarith

theorem nearExact_zero : NearExact 0 0 := by
  simp [NearExact]

/-- The formulas' quotient is within 2^-46 of its exact value. -/
theorem abs_sub_units_quotient_le {n : Nat} (hn : n < 2 ^ 8 * 65535) :
    2 ^ 46 * |(n : Int) * oneUnits - units (rne64 n 65535) * 65535| ≤ 65535 * oneUnits :=
  abs_sub_units_rne64_le (num := n) (den := 65535) (by decide) hn

theorem hum_eq_rne64 (raw : Half) : hum raw = rne64 ((100 * raw.toNat : Nat) : Int) 65535 := by
  obtain ⟨-, -, -, hhum⟩ := humidityIsTheOnceRoundedQuotient raw
  exact_mod_cast hhum

theorem hum_nearExact (raw : Half) : NearExact (100 * raw.toNat) (units (hum raw)) := by
  have hraw : raw.toNat < 2 ^ 16 := raw.isLt
  have hquot := abs_sub_units_quotient_le (n := 100 * raw.toNat) (by omega)
  rw [← hum_eq_rne64, Nat.cast_mul, Nat.cast_ofNat] at hquot
  rw [NearExact]
  linarith [abs_nonneg (100 * (raw.toNat : Int) * oneUnits - units (hum raw) * 65535)]

/-- The temperature formula's difference before its rounding, as a multiple of the unit. -/
def tempDifference (raw : Half) : Int := units (rne64 (175 * raw.toNat) 65535) - 45 * oneUnits

theorem temp_eq_rne64 (raw : Half) : temp raw = rne64 (tempDifference raw) oneUnits := by
  obtain ⟨-, -, -, htemp⟩ := temperatureIsTheTwiceRoundedFormula raw
  exact htemp

theorem abs_sub_tempDifference_le (raw : Half) :
    2 ^ 46 * |(175 * raw.toNat - 45 * 65535 : Int) * oneUnits - tempDifference raw * 65535| ≤ 65535 * oneUnits := by
  have hraw : raw.toNat < 2 ^ 16 := raw.isLt
  have hquot := abs_sub_units_quotient_le (n := 175 * raw.toNat) (by omega)
  push_cast at hquot
  have hshift : (175 * raw.toNat - 45 * 65535 : Int) * oneUnits - tempDifference raw * 65535 =
      175 * raw.toNat * oneUnits - units (rne64 (175 * raw.toNat) 65535) * 65535 := by
    rw [tempDifference]
    ring
  rwa [hshift]

theorem natAbs_tempDifference_lt (raw : Half) : (tempDifference raw).natAbs < 2 ^ 8 * oneUnits := by
  have hraw : raw.toNat < 2 ^ 16 := raw.isLt
  have hone : (0 : Int) < oneUnits := Int.natCast_pos.mpr oneUnits_pos
  have hquot := abs_sub_tempDifference_le raw
  have hlo := neg_abs_le ((175 * raw.toNat - 45 * 65535 : Int) * oneUnits - tempDifference raw * 65535)
  have hhi := le_abs_self ((175 * raw.toNat - 45 * 65535 : Int) * oneUnits - tempDifference raw * 65535)
  have hexactLo : (-45 * 65535 : Int) * oneUnits ≤ (175 * raw.toNat - 45 * 65535 : Int) * oneUnits :=
    Int.mul_le_mul_of_nonneg_right (by omega) hone.le
  have hexactHi : (175 * raw.toNat - 45 * 65535 : Int) * oneUnits ≤ (130 * 65535 : Int) * oneUnits :=
    Int.mul_le_mul_of_nonneg_right (by omega) hone.le
  zify
  rw [abs_lt]
  constructor <;> linarith

theorem abs_tempDifference_sub_le (raw : Half) : 2 ^ 46 * |tempDifference raw - units (temp raw)| ≤ oneUnits := by
  have hone : (0 : Int) < oneUnits := Int.natCast_pos.mpr oneUnits_pos
  have hround := abs_sub_units_rne64_le oneUnits_pos (natAbs_tempDifference_lt raw)
  rw [← temp_eq_rne64, ← sub_mul, abs_mul, abs_of_pos hone, ← mul_assoc] at hround
  exact Int.le_of_mul_le_mul_right hround hone

/-- The temperature's two roundings together. -/
theorem temp_nearExact (raw : Half) : NearExact (175 * raw.toNat - 45 * 65535) (units (temp raw)) := by
  have hquot := abs_sub_tempDifference_le raw
  have hround := abs_tempDifference_sub_le raw
  have hsum := abs_add_le ((175 * raw.toNat - 45 * 65535 : Int) * oneUnits - tempDifference raw * 65535)
    ((tempDifference raw - units (temp raw)) * 65535)
  rw [abs_mul _ (65535 : Int), abs_of_nonneg (by decide : (0 : Int) ≤ 65535), sub_mul (tempDifference raw),
    sub_add_sub_cancel] at hsum
  rw [NearExact]
  linarith

theorem isFinite_temp (raw : Half) : isFinite (temp raw) = true := by
  rw [temp_eq_rne64]
  exact isFinite_rne64_of_lt oneUnits_pos (natAbs_tempDifference_lt raw)

theorem isFinite_hum (raw : Half) : isFinite (hum raw) = true := by
  rw [hum_eq_rne64]
  exact isFinite_rne64_natCast (scaledCount_lt (c := 100) (by decide) raw) (by decide)

theorem msb_hum (raw : Half) : (hum raw).msb = false := by
  rw [hum_eq_rne64, msb_rne64_natCast]

theorem units_temp_lt {a b : Half} (h : a.toNat < b.toNat) : units (temp a) < units (temp b) :=
  (temp_nearExact a).lt (temp_nearExact b) (by omega)

theorem units_hum_lt {a b : Half} (h : a.toNat < b.toNat) : units (hum a) < units (hum b) :=
  (hum_nearExact a).lt (hum_nearExact b) (by omega)

/-- No count's exact temperature is 0, for 45 * 65535 is no multiple of 175. -/
theorem units_temp_ne_zero (raw : Half) : units (temp raw) ≠ 0 := by
  have hne : (175 * raw.toNat - 45 * 65535 : Int) ≠ 0 := by omega
  rcases lt_or_gt_of_ne hne with hneg | hpos
  · exact ((temp_nearExact raw).lt nearExact_zero hneg).ne
  · exact (nearExact_zero.lt (temp_nearExact raw) hpos).ne'

/-- Settles O26: the exact values of two counts are further apart than the roundings can be off. -/
theorem transferFunctionsStrictlyIncrease : Obligations.TransferFunctionsStrictlyIncrease := by
  refine ⟨fun a b h => ⟨units_temp_lt h, units_hum_lt h⟩,
    fun a => ⟨isFinite_temp a, isFinite_hum a, units_temp_ne_zero a, fun hzero => ?notNegativeZero⟩⟩
  case notNegativeZero =>
    have hmsb := msb_hum a
    rw [hzero] at hmsb
    exact absurd hmsb (by decide)

/-- A fraction's common factor does not count. -/
theorem rne64_mul_right (z : Int) {d : Nat} (hd : 0 < d) : rne64 (z * d) d = rne64 z 1 := by
  have hsign : decide (z * d < 0) = decide (z < 0) := by
    rw [decide_eq_decide, ← not_le, ← not_le, mul_nonneg_iff_of_pos_right (Int.natCast_pos.mpr hd)]
  have hscale : roundUnits (z.natAbs * oneUnits * d) (1 * d) = roundUnits (z.natAbs * oneUnits) 1 :=
    roundUnits_scale Nat.one_pos hd
  rw [rne64, rne64, hsign, Int.natAbs_mul, Int.natAbs_natCast, Nat.mul_right_comm, ← hscale, Nat.one_mul]

/-- A small whole number rounds to itself, whatever fraction it is written as. -/
theorem units_rne64_mul {z : Int} (hz : z.natAbs < 2 ^ 53) {d : Nat} (hd : 0 < d) :
    units (rne64 (z * d) d) = z * oneUnits := by
  obtain ⟨hdvd, hfin⟩ := roundShift_integer hz
  rw [rne64_mul_right z hd, rne64, units_packF64, magUnits_packF64_roundUnits_exact _ hdvd hfin, Nat.cast_mul,
    ← mul_assoc]
  simp only [decide_eq_true_eq]
  exact congrArg (· * (oneUnits : Int)) (signOf_mul_natAbs z)

theorem units_temp_of_quotient {raw : Half} {q : Int} (hq : units (rne64 (175 * raw.toNat) 65535) = q * oneUnits)
    (hsmall : (q - 45).natAbs < 2 ^ 53) : units (temp raw) = (q - 45) * oneUnits := by
  rw [temp_eq_rne64, tempDifference, hq, ← sub_mul]
  exact units_rne64_mul hsmall oneUnits_pos

theorem units_temp_zero : units (temp 0x0000) = -45 * oneUnits := by
  have hquot : units (rne64 (175 * (0x0000 : Half).toNat) 65535) = 0 * oneUnits :=
    units_rne64_mul (z := 0) (d := 65535) (by decide) (by decide)
  exact units_temp_of_quotient hquot (by decide)

theorem units_temp_max : units (temp 0xFFFF) = 130 * oneUnits := by
  have hquot : units (rne64 (175 * (0xFFFF : Half).toNat) 65535) = 175 * oneUnits :=
    units_rne64_mul (z := 175) (d := 65535) (by decide) (by decide)
  exact units_temp_of_quotient hquot (by decide)

theorem units_hum_max : units (hum 0xFFFF) = 100 * oneUnits := by
  rw [hum_eq_rne64]
  exact units_rne64_mul (z := 100) (d := 65535) (by decide) (by decide)

/-- Strictly increasing is increasing: equal counts give equal values. -/
theorem le_of_toNat_le {f : Half → Int} (hlt : ∀ {a b : Half}, a.toNat < b.toNat → f a < f b) {a b : Half}
    (h : a.toNat ≤ b.toNat) : f a ≤ f b := by
  rcases Nat.eq_or_lt_of_le h with heq | hne
  · exact (congrArg f (BitVec.eq_of_toNat_eq heq)).le
  · exact (hlt hne).le

/-- Every temperature lies between those of the least and the greatest count (10_state.md R32.2). -/
theorem units_temp_range (raw : Half) : -45 * oneUnits ≤ units (temp raw) ∧ units (temp raw) ≤ 130 * oneUnits := by
  rw [← units_temp_zero, ← units_temp_max]
  exact ⟨le_of_toNat_le units_temp_lt (Nat.zero_le _), le_of_toNat_le units_temp_lt (Nat.le_of_lt_succ raw.isLt)⟩

/-- Every humidity lies between 0 and that of the greatest count (10_state.md R32.2). -/
theorem units_hum_range (raw : Half) : 0 ≤ units (hum raw) ∧ units (hum raw) ≤ 100 * oneUnits := by
  rw [← units_hum_max]
  refine ⟨?_, le_of_toNat_le units_hum_lt (Nat.le_of_lt_succ raw.isLt)⟩
  rw [units_of_msb_false (msb_hum raw)]
  exact Int.natCast_nonneg _

/-- Settles O25: the four values, evaluated. -/
theorem transferFunctionsAtTheEndsOfTheRange : Obligations.TransferFunctionsAtTheEndsOfTheRange := by
  refine ⟨?_, ?_, ?_, ?_⟩ <;> decide

/-- Settles O27: both readings at raw 370, evaluated; `temp` is the first by `TEMP_EVAL`'s value. -/
theorem theTwoTemperatureReadingsDifferAtRaw370 : Obligations.TheTwoTemperatureReadingsDifferAtRaw370 := by
  refine ⟨?_, ?_, fun _ => rfl⟩ <;> decide

end Sys2Proof.Machine
end

section
/-! The step by the event it takes (20_memory.md R56, R58): a word, a reset (70_reset_and_hazards.md R231) or
nothing, each taken whole and alone. -/

namespace Sys2Proof.Machine

theorem exec_total (i : Instr) (s : State) : ∃ t, exec i s = .next t := by
  cases i with
  | nop | crcinit | crcbyte | mdec | sdec => exact ⟨_, rfl⟩

/-- A legal word's step is its operation on the state less the event. -/
theorem step_legal {s : State} {w : Word} {rest : List HostEvent} {i : Instr} (hin : s.input = .word w :: rest)
    (hdec : decode w = .legal i) : step s = exec i (s.withInput rest) := by
  rw [step, State.take_legal hin hdec]

theorem step_reset {s : State} {rest : List HostEvent} (hin : s.input = .reset :: rest) :
    step s = .next { State.reset with input := rest } := by
  rw [step, State.take_reset hin]
  rfl

theorem step_idle {s : State} (hin : s.input = []) : step s = .next s := by
  rw [step, State.take_idle hin]

theorem step_total (s : State) : ∃ t, step s = .next t := by
  rcases s.take_cases with ⟨hin, -⟩ | ⟨rest, hin, -⟩ | ⟨w, rest, i, hin, hdec, -⟩ | ⟨w, rest, why, hin, hdec, -⟩
  · exact ⟨s, step_idle hin⟩
  · exact ⟨_, step_reset hin⟩
  · rw [step_legal hin hdec]
    exact exec_total i _
  · exact ⟨_, step_illegal hin hdec⟩

/-- A step takes exactly the first event. -/
theorem step_input {s t : State} (h : step s = .next t) : t.input = s.input.tail := by
  rcases step_cases h with ⟨hin, rfl⟩ | ⟨rest, hin, rfl⟩ | ⟨w, rest, i, hin, -, hexec⟩ | ⟨w, rest, why, hin, -, rfl⟩
  · rw [hin, List.tail_nil]
  · rw [hin, List.tail_cons, State.applyReset_input, State.withInput_input]
  · rw [hin, List.tail_cons, (exec_keeps_input_err hexec).1, State.withInput_input]
  · rw [hin, List.tail_cons, State.raiseIllegal_input, State.withInput_input]

/-- Settles O7: a legal word is taken as its operation. -/
theorem stepRunsTheDecodedWord : Obligations.StepRunsTheDecodedWord :=
  fun _ _ _ _ => step_legal

/-- Settles O8: with nothing issued there is nothing to take. -/
theorem stepWithNothingIssuedChangesNothing : Obligations.StepWithNothingIssuedChangesNothing :=
  fun _ => step_idle

/-- Settles O9: whatever is taken has an effect, and no effect touches the events after it. -/
theorem stepAlwaysAnswersANextState : Obligations.StepAlwaysAnswersANextState := by
  intro s
  obtain ⟨t, h⟩ := step_total s
  exact ⟨t, h, step_input h⟩

/-- Settles O42: a reset event's step does not depend on the registers, and every other step keeps the sticky bits. -/
theorem resetIsTheOnlyWayBack : Obligations.ResetIsTheOnlyWayBack := by
  refine ⟨fun _ _ => step_reset, fun s t w rest hin h => ?acrossReset, fun s t h hcleared => ?onlyReset, rfl⟩
  case acrossReset =>
    have htail : t.input = .reset :: rest := by rw [step_input h, hin, List.tail_cons]
    exact ⟨step_reset htail, step_reset rfl⟩
  case onlyReset =>
    rcases step_reset_or_keeps_sticky h with hreset | ⟨herr, hmv, hsv⟩
    · exact hreset
    · rcases hcleared with ⟨hs, ht⟩ | ⟨hs, ht⟩ | ⟨hs, ht⟩
      · simp [herr hs] at ht
      · simp [hmv hs] at ht
      · simp [hsv hs] at ht

end Sys2Proof.Machine
end

section
/-! Frames, idempotence and what a mismatch leaves behind (10_state.md R20, R21; 20_memory.md R57; 60_exceptions.md
R201), all read off the one write that each operation is. -/

namespace Sys2Proof.Machine

/-- Settles O37: each operation writes its own registers. -/
theorem frameOfEachOperation : Obligations.FrameOfEachOperation := by
  refine ⟨fun s t h => ?_, fun s t h => ?_, fun d s t h => ?_, fun b0 b1 b2 b3 b4 b5 s t h => ?_,
    fun b0 b1 b2 s t h => ?_⟩ <;> cases h <;> rfl

/-- Settles O38: `ACC` is neither in MDEC's and SDEC's writes nor in what they write. -/
theorem decodesNeitherReadNorWriteTheAccumulator : Obligations.DecodesNeitherReadNorWriteTheAccumulator := by
  refine ⟨fun b0 b1 b2 b3 b4 b5 s t a h => ?_, fun b0 b1 b2 s t a h => ?_⟩ <;> cases h <;> exact ⟨rfl, rfl⟩

/-- Settles O39: what these operations write does not depend on the state. -/
theorem repeatingAnIdempotentOperationChangesNothing : Obligations.RepeatingAnIdempotentOperationChangesNothing := by
  refine ⟨fun s t h => ?_, fun b0 b1 b2 b3 b4 b5 s t h => ?_, fun b0 b1 b2 s t h => ?_⟩ <;>
    cases h <;> rfl

theorem tripletMatches_of_ne {b0 b1 c : Byte} (h : crc8 [b0, b1] ≠ c) : tripletMatches b0 b1 c = false := by
  rw [tripletMatches_eq_decide, decide_eq_false h]

/-- Settles O20: a field that does not match is written as the flag 0 and the sentinel. -/
theorem checksumMismatchRecordsNothingOfTheField : Obligations.ChecksumMismatchRecordsNothingOfTheField := by
  refine ⟨fun b0 b1 b2 c0 c1 c2 b3 b4 b5 s hb hc => ?temperature, fun b0 b1 b2 b3 b4 b5 c3 c4 c5 s hb hc => ?humidity⟩
  case temperature =>
    rw [exec_mdec, exec_mdec, tripletMatches_of_ne hb, tripletMatches_of_ne hc, gated_false, gated_false]
  case humidity =>
    rw [exec_mdec, exec_mdec, tripletMatches_of_ne hb, tripletMatches_of_ne hc, gated_false, gated_false]

end Sys2Proof.Machine
end

section
/-! The CRC-8 functions over whole sequences (40_crc.md R113 to R116): the printed table, the unbounded register
whose low byte is the register of 8 bits, the residue, and the words whose run computes `crc8`. -/

namespace Sys2Proof.Machine

theorem crcStep_xor (a b : Byte) : crcStep (a ^^^ b) = crcStep a ^^^ crcStep b :=
  crcShifts_xor 8 a b

/-- The printed table lists the steps of the 256 bytes in order. -/
theorem crcTable_eq_map : crcTable = (List.range 256).map fun n => crcStep (BitVec.ofNat 8 n) := by
  decide +kernel

theorem crcTable_getElem? (a : Byte) : crcTable[a.toNat]? = some (crcStep a) := by
  rw [crcTable_eq_map, List.getElem?_map, List.getElem?_range a.isLt, Option.map_some, BitVec.ofNat_toNat,
    BitVec.setWidth_eq]

/-- Settles O14: the step is shift steps, each of them linear; the table by its 256 entries. -/
theorem crcStepIsLinearAndTabulated : Obligations.CrcStepIsLinearAndTabulated :=
  ⟨crcStep_xor, crcShifts_of_zero 8, crcTable_getElem?, fun acc d => crcTable_getElem? (acc ^^^ d)⟩

/-- A shift step of the unbounded register is one of its low byte. -/
theorem ofNat_wideShift (r : Nat) : BitVec.ofNat 8 (wideShift r) = crcShift (BitVec.ofNat 8 r) := by
  have hdouble : BitVec.ofNat 8 (r * 2) = BitVec.ofNat 8 r <<< 1 := by
    apply BitVec.eq_of_toNat_eq
    simp [Nat.shiftLeft_eq]
  have hbit : (BitVec.ofNat 8 r).getLsbD 7 = r.testBit 7 := by
    rw [BitVec.getLsbD_ofNat, decide_eq_true (by decide), Bool.true_and]
  rw [wideShift, crcShift, hbit]
  split
  · rw [BitVec.ofNat_xor, hdouble, BitVec.ofNat_toNat, BitVec.setWidth_eq]
  · exact hdouble

theorem ofNat_wideShifts (n r : Nat) : BitVec.ofNat 8 (wideShifts n r) = crcShifts n (BitVec.ofNat 8 r) := by
  induction n generalizing r with
  | zero => rfl
  | succ n ih => rw [wideShifts_succ, ih, ofNat_wideShift, crcShifts_succ]

/-- Feeding bytes to the unbounded register feeds them to its low byte. -/
theorem ofNat_foldl_wide (bytes : List Byte) (r : Nat) :
    BitVec.ofNat 8 (bytes.foldl (fun r b => wideShifts 8 (r ^^^ b.toNat)) r) =
      bytes.foldl crcByte (BitVec.ofNat 8 r) := by
  induction bytes generalizing r with
  | nil => rfl
  | cons b bytes ih =>
    have hbyte : BitVec.ofNat 8 (wideShifts 8 (r ^^^ b.toNat)) = crcByte (BitVec.ofNat 8 r) b := by
      rw [ofNat_wideShifts, BitVec.ofNat_xor, BitVec.ofNat_toNat, BitVec.setWidth_eq, crcByte, crcStep]
    rw [List.foldl_cons, List.foldl_cons, ih, hbyte]

/-- Settles O15: the low byte of the unbounded register follows the 8-bit one all along. -/
theorem truncatingAtTheEndGivesTheSameCrc : Obligations.TruncatingAtTheEndGivesTheSameCrc := by
  intro bytes
  have hlow := ofNat_foldl_wide bytes Config.crcInit.toNat
  rw [BitVec.ofNat_toNat, BitVec.setWidth_eq] at hlow
  rw [wideCrc, crc8, ← hlow, BitVec.toNat_ofNat]

theorem crcShifts_eq_zero {n : Nat} {r : Byte} (h : crcShifts n r = 0) : r = 0 := by
  induction n generalizing r with
  | zero => exact h
  | succ n ih => exact crcShift_eq_zero (ih h)

/-- Only a byte equal to the register takes it to 0. -/
theorem crcByte_eq_zero_iff (acc d : Byte) : crcByte acc d = 0 ↔ acc = d := by
  constructor
  · intro h
    exact BitVec.xor_eq_zero_iff.mp (crcShifts_eq_zero h)
  · rintro rfl
    exact crcByte_self acc

/-- Settles O16: the residue is the last byte's step from the CRC of the others, and only their CRC takes it to 0. -/
theorem tripletPassesExactlyWhenItsResidueIsZero : Obligations.TripletPassesExactlyWhenItsResidueIsZero := by
  refine ⟨fun bytes => ?appended, fun b0 b1 b2 => ?triplet⟩
  case appended =>
    rw [crc8_append_singleton]
    exact crcByte_self _
  case triplet =>
    have hresidue : crc8 [b0, b1, b2] = crcByte (crc8 [b0, b1]) b2 := crc8_append_singleton [b0, b1] b2
    rw [hresidue]
    exact (crcByte_eq_zero_iff _ _).symm

/-- The step that takes an operation's own word. -/
theorem step_encode (s : State) (i : Instr) (rest : List HostEvent) :
    step (s.withInput (.word (encode i) :: rest)) = exec i (s.withInput rest) :=
  step_legal rfl (decodeInvertsEncode i)

/-- A run of CRCBYTEs feeds its bytes to `ACC` and changes nothing else. -/
theorem run_crcbytes (bytes : List Byte) (s : State) :
    Host.Core.run Sys2Proof.core bytes.length
      (s.withInput (bytes.map fun d => .word (encode (.crcbyte d)))) =
    .next ((s.writeAcc (bytes.foldl crcByte s.acc)).withInput []) := by
  induction bytes generalizing s with
  | nil => rfl
  | cons d bytes ih =>
    rw [List.length_cons, List.map_cons, run_succ bytes.length (step_encode s (.crcbyte d) _)]
    exact ih (s.writeAcc (crcByte s.acc d))

/-- Settles O13: CRCINIT loads the initial value of the fold, and the CRCBYTEs are the fold. -/
theorem accumulatorComputesCrc8 : Obligations.AccumulatorComputesCrc8 := by
  intro s bytes
  exact (run_succ bytes.length (step_encode s .crcinit _)).trans (run_crcbytes bytes (s.writeAcc Config.crcInit))

end Sys2Proof.Machine
end

section
/-! The invariant (10_state.md R32): what it says case by case, that every step keeps it, and what the outputs and
direct reads show under it. -/

namespace Sys2Proof.Machine

open Sys2Proof.Safety

theorem fieldInv_true_iff (lo hi : Int) (v : F64) :
    fieldInv lo hi true v = true ↔
      isFinite v = true ∧ v ≠ Config.nanBits ∧ lo * oneUnits ≤ units v ∧ units v ≤ hi * oneUnits := by
  simp [fieldInv, and_assoc]

theorem fieldInv_false_iff (lo hi : Int) (v : F64) : fieldInv lo hi false v = true ↔ v = Config.nanBits := by
  simp [fieldInv]

/-- The measurement's registers are all empty under `MV` = 0 or all held under `MV` = 1, each field's within R32. -/
theorem measurementInv_iff (s : State) :
    measurementInv s = true ↔
      (s.mv = false ∧ s.tOk = none ∧ s.tVal = none ∧ s.hOk = none ∧ s.hVal = none) ∨
      (s.mv = true ∧ ∃ tOk tVal hOk hVal, s.tOk = some tOk ∧ s.tVal = some tVal ∧ s.hOk = some hOk ∧
        s.hVal = some hVal ∧ fieldInv (-45) 130 tOk tVal = true ∧ fieldInv 0 100 hOk hVal = true) := by
  obtain ⟨acc, mv, tOk, hOk, tVal, hVal, sv, stOk, stWord, err, input⟩ := s
  cases mv <;> cases tOk <;> cases tVal <;> cases hOk <;> cases hVal <;> simp [measurementInv]

/-- The status registers are empty, hold a word that matched, or hold a mismatch and no word. -/
theorem statusInv_iff (s : State) :
    statusInv s = true ↔
      (s.sv = false ∧ s.stOk = none ∧ s.stWord = none) ∨
      (s.sv = true ∧ s.stOk = some true ∧ ∃ w, s.stWord = some w) ∨
      (s.sv = true ∧ s.stOk = some false ∧ s.stWord = none) := by
  obtain ⟨acc, mv, tOk, hOk, tVal, hVal, sv, stOk, stWord, err, input⟩ := s
  rcases sv with _ | _ <;> rcases stOk with _ | _ | _ <;> cases stWord <;> simp [statusInv]

/-- A finite value is not the sentinel. -/
theorem ne_nanBits_of_isFinite {v : F64} (h : isFinite v = true) : v ≠ Config.nanBits := by
  rintro rfl
  exact absurd h (by decide)

/-- A decoded field, whether its CRC matched or not, is within R32 when its value is finite and in range. -/
theorem fieldInv_gated {lo hi : Int} {v : F64} (ok : Bool) (hfin : isFinite v = true)
    (hrange : lo * oneUnits ≤ units v ∧ units v ≤ hi * oneUnits) : fieldInv lo hi ok (gated ok v) = true := by
  cases ok with
  | false => exact (fieldInv_false_iff lo hi _).mpr rfl
  | true => exact (fieldInv_true_iff lo hi v).mpr ⟨hfin, ne_nanBits_of_isFinite hfin, hrange⟩

/-- What MDEC writes is within R32, whatever the counts. -/
theorem measurementInv_writeMeasurement (s : State) (tOk hOk : Bool) (tRaw hRaw : Half) :
    measurementInv (s.writeMeasurement tOk (gated tOk (temp tRaw)) hOk (gated hOk (hum hRaw))) = true := by
  refine (measurementInv_iff _).mpr (.inr ⟨rfl, _, _, _, _, rfl, rfl, rfl, rfl, ?_, ?_⟩)
  · exact fieldInv_gated tOk (isFinite_temp tRaw) (units_temp_range tRaw)
  · exact fieldInv_gated hOk (isFinite_hum hRaw) (by simpa using units_hum_range hRaw)

theorem statusInv_writeStatus (s : State) (ok : Bool) (w : Half) : statusInv (s.writeStatus ok w) = true := by
  cases ok with
  | false => exact (statusInv_iff _).mpr (.inr (.inr ⟨rfl, rfl, rfl⟩))
  | true => exact (statusInv_iff _).mpr (.inr (.inl ⟨rfl, rfl, w, rfl⟩))

theorem exec_keeps_stateInv {i : Instr} {s t : State} (hinv : stateInv s = true) (h : exec i s = .next t) :
    stateInv t = true := by
  obtain ⟨hmeas, hstat⟩ := (stateInv_iff s).mp hinv
  rcases exec_cases h with rfl | ⟨v, rfl⟩ | ⟨tOk, tRaw, hOk, hRaw, rfl⟩ | ⟨ok, w, rfl⟩
  · exact hinv
  · exact hinv
  · exact (stateInv_iff _).mpr ⟨measurementInv_writeMeasurement s tOk hOk tRaw hRaw, hstat⟩
  · exact (stateInv_iff _).mpr ⟨hmeas, statusInv_writeStatus s ok w⟩

/-- Settles O45: no register holds a value and both valid bits are 0. -/
theorem theInvariantHoldsAfterReset : Obligations.TheInvariantHoldsAfterReset :=
  (stateInv_iff _).mpr ⟨(measurementInv_iff _).mpr (.inl ⟨rfl, rfl, rfl, rfl, rfl⟩),
    (statusInv_iff _).mpr (.inl ⟨rfl, rfl, rfl⟩)⟩

/-- Settles O46: reset answers the reset state's registers, `ERR` and the events are not in the invariant, and what
the decodes write is within it (`exec_keeps_stateInv`). -/
theorem everyStepKeepsTheInvariant : Obligations.EveryStepKeepsTheInvariant := by
  intro s t hinv h
  rcases step_cases h with ⟨-, rfl⟩ | ⟨rest, -, rfl⟩ | ⟨w, rest, i, -, -, hexec⟩ | ⟨w, rest, why, -, -, rfl⟩
  · exact hinv
  · exact theInvariantHoldsAfterReset
  · have htaken : stateInv (s.withInput rest) = true := hinv
    exact exec_keeps_stateInv htaken hexec
  · exact hinv

/-- What `out_meas` shows is within R32. -/
theorem fieldInv_of_outMeas {s : State} {m : MeasOut} (hinv : stateInv s = true) (hm : outMeas s = some m) :
    fieldInv (-45) 130 m.tOk m.tVal = true ∧ fieldInv 0 100 m.hOk m.hVal = true := by
  obtain ⟨hmv, htOk, htVal, hhOk, hhVal⟩ := (outMeas_eq_some_iff s m).mp hm
  obtain ⟨hmeas, -⟩ := (stateInv_iff s).mp hinv
  simpa [measurementInv_iff, hmv, htOk, htVal, hhOk, hhVal] using hmeas

theorem flag_false_iff_of_fieldInv {lo hi : Int} {ok : Bool} {v : F64} (h : fieldInv lo hi ok v = true) :
    ok = false ↔ v = Config.nanBits := by
  cases ok with
  | false => exact iff_of_true rfl ((fieldInv_false_iff lo hi v).mp h)
  | true =>
    obtain ⟨-, hne, -⟩ := (fieldInv_true_iff lo hi v).mp h
    exact iff_of_false (by decide) hne

theorem range_of_fieldInv {lo hi : Int} {ok : Bool} {v : F64} (h : fieldInv lo hi ok v = true) (hok : ok = true) :
    lo * oneUnits ≤ units v ∧ units v ≤ hi * oneUnits := by
  subst hok
  exact ((fieldInv_true_iff lo hi v).mp h).2.2

/-- Settles O47: the field invariant of each shown field, read both ways. -/
theorem aFieldIsTheSentinelExactlyWhenItsFlagIsClear : Obligations.AFieldIsTheSentinelExactlyWhenItsFlagIsClear := by
  intro s hinv m hm
  obtain ⟨htemp, hhum⟩ := fieldInv_of_outMeas hinv hm
  refine ⟨flag_false_iff_of_fieldInv htemp, flag_false_iff_of_fieldInv hhum, range_of_fieldInv htemp, fun hok => ?_⟩
  have hrange := range_of_fieldInv hhum hok
  rwa [zero_mul] at hrange

/-- Under the invariant `out_meas` shows the four registers while `MV` = 1. -/
theorem exists_outMeas_of_mv {s : State} (hinv : stateInv s = true) (hmv : s.mv = true) :
    ∃ m, outMeas s = some m := by
  obtain ⟨hmeas, -⟩ := (stateInv_iff s).mp hinv
  rcases (measurementInv_iff s).mp hmeas with ⟨hclear, -⟩ | ⟨-, tOk, tVal, hOk, hVal, htOk, htVal, hhOk, hhVal, -⟩
  · simp [hmv] at hclear
  · exact ⟨⟨tOk, tVal, hOk, hVal⟩, (outMeas_eq_some_iff s _).mpr ⟨hmv, htOk, htVal, hhOk, hhVal⟩⟩

/-- Under the invariant PRESENT holds a word. -/
theorem exists_stWord_of_present {s : State} (hinv : stateInv s = true) (hpresent : stState s = .present) :
    ∃ w, s.stWord = some w := by
  obtain ⟨-, hstat⟩ := (stateInv_iff s).mp hinv
  obtain ⟨-, hok⟩ := (stState_present_iff s).mp hpresent
  rcases (statusInv_iff s).mp hstat with ⟨-, hnone, -⟩ | ⟨-, -, hword⟩ | ⟨-, hfalse, -⟩
  · simp [hok] at hnone
  · exact hword
  · simp [hok] at hfalse

end Sys2Proof.Machine
end

section
/-! Outputs, pins and direct reads (10_state.md R30, R34; 93_implementation_defined.md U3 to U5): which lines are
qualified, and what they and the direct reads show then. -/

namespace Sys2Proof.Machine

open Sys2Proof.Safety

/-- While `out_meas` shows something, the measurement's data lines show the same. -/
theorem measurement_pins_of_outMeas {s : State} {m : MeasOut} (hm : outMeas s = some m) :
    pinTOk s = some m.tOk ∧ pinTVal s = some m.tVal ∧ pinHOk s = some m.hOk ∧ pinHVal s = some m.hVal := by
  obtain ⟨hmv, hregisters⟩ := (outMeas_eq_some_iff s m).mp hm
  simpa only [pinTOk, pinTVal, pinHOk, pinHVal, pinMeasValid, hmv, qualified_true] using hregisters

/-- While `MV` = 0 no data line of the measurement shows a value. -/
theorem measurement_pins_of_mv_false {s : State} (hmv : s.mv = false) :
    pinTOk s = none ∧ pinTVal s = none ∧ pinHOk s = none ∧ pinHVal s = none := by
  simp only [pinTOk, pinTVal, pinHOk, pinHVal, pinMeasValid, hmv, qualified_false, and_self]

/-- The lines `st_word` show what `out_status` does. -/
theorem pinStWord_eq_outStatus (s : State) : pinStWord s = outStatus s := by
  simp only [pinStWord, qualified, outStatus, decide_eq_true_eq]

theorem isSome_pinPred (p : Predicate) (s : State) : (pinPred p s).isSome = pinPredKnown p s := by
  rw [pinPred, pinPredKnown]
  cases outPred p s <;> rfl

theorem pinStState_ne_three (s : State) : pinStState s ≠ 0b11 := by
  rw [pinStState]
  cases stState s <;> decide

theorem exists_outStatus_of_present {s : State} (hinv : stateInv s = true) (hpresent : stState s = .present) :
    ∃ w, outStatus s = some w := by
  rw [outStatus_of_present hpresent]
  exact exists_stWord_of_present hinv hpresent

/-- Under the invariant `out_status` shows a word exactly while PRESENT. -/
theorem isSome_outStatus_iff {s : State} (hinv : stateInv s = true) :
    (outStatus s).isSome = true ↔ stState s = .present := by
  refine ⟨fun hsome => ?_, fun hpresent => Option.isSome_iff_exists.mpr (exists_outStatus_of_present hinv hpresent)⟩
  by_contra hnot
  simp [outStatus_of_not_present hnot] at hsome

/-- Under the invariant a predicate is known exactly while PRESENT. -/
theorem pinPredKnown_iff {s : State} (hinv : stateInv s = true) (p : Predicate) :
    pinPredKnown p s = true ↔ stState s = .present := by
  rw [← Bool.not_eq_false, pinPredKnown_eq_false_iff]
  constructor
  · intro hknown
    by_contra hnot
    exact hknown (outPred_of_not_present p hnot)
  · intro hpresent hunknown
    obtain ⟨w, hw⟩ := exists_outStatus_of_present hinv hpresent
    rw [outPred_of_some p hw] at hunknown
    split at hunknown <;> cases hunknown

/-- The measurement's lines under the invariant, all of them by `MV`. -/
theorem isSome_measurement_pins {s : State} (hinv : stateInv s = true) :
    (outMeas s).isSome = s.mv ∧ (pinTOk s).isSome = s.mv ∧ (pinTVal s).isSome = s.mv ∧
      (pinHOk s).isSome = s.mv ∧ (pinHVal s).isSome = s.mv := by
  cases hmv : s.mv with
  | false =>
    obtain ⟨htOk, htVal, hhOk, hhVal⟩ := measurement_pins_of_mv_false hmv
    simp [outMeas_of_mv_false hmv, htOk, htVal, hhOk, hhVal]
  | true =>
    obtain ⟨m, hm⟩ := exists_outMeas_of_mv hinv hmv
    obtain ⟨htOk, htVal, hhOk, hhVal⟩ := measurement_pins_of_outMeas hm
    simp [hm, htOk, htVal, hhOk, hhVal]

/-- Settles O34: the qualifying lines are `MV` and PRESENT, and under the invariant the registers behind them hold
values. -/
theorem dataLinesShowValuesExactlyWhenQualified : Obligations.DataLinesShowValuesExactlyWhenQualified := by
  intro s hinv
  refine ⟨isSome_measurement_pins hinv, fun hmv => ?shown, isSome_outStatus_iff hinv, pinStWord_eq_outStatus s,
    (isSome_pinPred · s), fun p => ⟨pinPredKnown_iff hinv p, pinPred_eq p s true, pinPred_eq p s false⟩,
    pinStState_ne_three s⟩
  case shown =>
    obtain ⟨m, hm⟩ := exists_outMeas_of_mv hinv hmv
    obtain ⟨-, hregisters⟩ := (outMeas_eq_some_iff s m).mp hm
    obtain ⟨htOk, htVal, hhOk, hhVal⟩ := measurement_pins_of_outMeas hm
    exact ⟨m.tOk, m.tVal, m.hOk, m.hVal, hm, htOk, htVal, hhOk, hhVal, hregisters⟩

/-- Settles O35: a line that shows nothing has the free level, and one that shows its register has that. -/
theorem dataLinesCarryAnyValueWhileUnqualified : Obligations.DataLinesCarryAnyValueWhileUnqualified := by
  refine ⟨fun s hmv => ?measurementIdle, fun s hnot v => ?statusIdle, fun s p hunknown v => ?predicateIdle,
    fun s hinv => ⟨fun hmv => ?measurement, fun hpresent v => ?status, fun p hknown v => ?predicate⟩⟩
  case measurementIdle =>
    obtain ⟨htOk, htVal, hhOk, hhVal⟩ := measurement_pins_of_mv_false hmv
    simp [levelTOk, levelTVal, levelHOk, levelHVal, htOk, htVal, hhOk, hhVal]
  case statusIdle =>
    rw [levelStWord, pinStWord_eq_outStatus, outStatus_of_not_present hnot, lineLevel_none]
  case predicateIdle =>
    rw [levelPred, pinPred, (pinPredKnown_eq_false_iff p s).mp hunknown, lineLevel_none]
  case measurement =>
    obtain ⟨m, hm⟩ := exists_outMeas_of_mv hinv hmv
    obtain ⟨-, htOk, htVal, hhOk, hhVal⟩ := (outMeas_eq_some_iff s m).mp hm
    obtain ⟨hpTOk, hpTVal, hpHOk, hpHVal⟩ := measurement_pins_of_outMeas hm
    simp [levelTOk, levelTVal, levelHOk, levelHVal, hpTOk, hpTVal, hpHOk, hpHVal, htOk, htVal, hhOk, hhVal]
  case status =>
    obtain ⟨w, hw⟩ := exists_stWord_of_present hinv hpresent
    rw [levelStWord, pinStWord_eq_outStatus, outStatus_of_present hpresent, hw, lineLevel_some]
  case predicate =>
    have htrue : pinPred p s = some true ↔ outPred p s = .isTrue := pinPred_eq p s true
    obtain ⟨b, hb⟩ := Option.isSome_iff_exists.mp ((isSome_pinPred p s).trans hknown)
    rw [levelPred, ← htrue, hb, lineLevel_some, Option.some_inj]

/-- Settles O36: the registers themselves, and the three cases of `SV` and `ST_OK`. -/
theorem outputsFollowTheirRegisters : Obligations.OutputsFollowTheirRegisters := by
  refine fun s => ⟨rfl, rfl, rfl, rfl, rfl, fun hsv => ?empty, fun hsv hok => ?absent, fun hsv hok => ?present⟩
  case empty =>
    have hstate : stState s = .empty := (stState_empty_iff s).mpr hsv
    exact ⟨hstate, by rw [pinStState, hstate]⟩
  case absent =>
    have hstate : stState s = .absent := by simp [stState, hsv, hok]
    exact ⟨hstate, by rw [pinStState, hstate]⟩
  case present =>
    have hstate : stState s = .present := (stState_present_iff s).mpr ⟨hsv, hok⟩
    exact ⟨hstate, by rw [pinStState, hstate], outStatus_of_present hstate⟩

/-- Settles O41: the outputs of the empty registers. -/
theorem outputsAfterReset : Obligations.OutputsAfterReset := by
  have hempty : stState State.reset = .empty := (stState_empty_iff _).mpr State.reset_sv
  have hnot : stState State.reset ≠ .present := hempty ▸ by decide
  exact ⟨State.reset_acc, outMeas_of_mv_false State.reset_mv, hempty, outStatus_of_not_present hnot,
    (outPred_of_not_present · hnot), State.reset_err⟩

theorem status_registers_of_sv_false {s : State} (hinv : stateInv s = true) (hsv : s.sv = false) :
    s.stOk = none ∧ s.stWord = none := by
  obtain ⟨-, hstat⟩ := (stateInv_iff s).mp hinv
  rcases (statusInv_iff s).mp hstat with ⟨-, hnone⟩ | ⟨hset, -⟩ | ⟨hset, -⟩
  · exact hnone
  · simp [hsv] at hset
  · simp [hsv] at hset

theorem status_registers_of_sv_true {s : State} (hinv : stateInv s = true) (hsv : s.sv = true) :
    (s.stOk = some true ∧ ∃ w, s.stWord = some w) ∨ (s.stOk = some false ∧ s.stWord = none) := by
  obtain ⟨-, hstat⟩ := (stateInv_iff s).mp hinv
  rcases (statusInv_iff s).mp hstat with ⟨hclear, -⟩ | ⟨-, hmatched⟩ | ⟨-, hmismatched⟩
  · simp [hsv] at hclear
  · exact .inl hmatched
  · exact .inr hmismatched

theorem stWord_of_outStatus {s : State} {w : Half} (hw : outStatus s = some w) : s.stWord = some w := by
  by_cases hpresent : stState s = .present
  · rwa [outStatus_of_present hpresent] at hw
  · simp [outStatus_of_not_present hpresent] at hw

theorem stWord_of_absent {s : State} (hinv : stateInv s = true) (habsent : stState s = .absent) :
    s.stWord = none := by
  cases hsv : s.sv with
  | false => exact (status_registers_of_sv_false hinv hsv).2
  | true =>
    rcases status_registers_of_sv_true hinv hsv with ⟨hok, -⟩ | ⟨-, hnone⟩
    · simp [(stState_present_iff s).mpr ⟨hsv, hok⟩] at habsent
    · exact hnone

/-- Settles O44: a direct read answers what the register holds, and the invariant says when that is something. -/
theorem directReadsFaultExactlyWithoutAValue : Obligations.DirectReadsFaultExactlyWithoutAValue := by
  refine ⟨fun s hinv => ⟨fun hsv => ?empty, fun hsv => ?valid, fun w hw => ?word, fun habsent => ?absent,
    fun m hm => ?measurement⟩, fun b0 b1 b2 s hne => ⟨_, exec_sdec_of_mismatch hne s, rfl, rfl, rfl⟩⟩
  case empty =>
    obtain ⟨hok, hword⟩ := status_registers_of_sv_false hinv hsv
    simp [hok, hword]
  case valid =>
    rcases status_registers_of_sv_true hinv hsv with ⟨hok, -⟩ | ⟨hok, -⟩
    · exact ⟨true, hok, by rw [hok, readResult_some]⟩
    · exact ⟨false, hok, by rw [hok, readResult_some]⟩
  case word => rw [stWord_of_outStatus hw, readResult_some]
  case absent =>
    have hword : s.stWord = none := stWord_of_absent hinv habsent
    exact ⟨hword, by rw [hword, readResult_none]⟩
  case measurement =>
    obtain ⟨-, htOk, htVal, hhOk, hhVal⟩ := (outMeas_eq_some_iff s m).mp hm
    simp [htOk, htVal, hhOk, hhVal]

end Sys2Proof.Machine
end

section
/-! The history of the status (10_state.md R32.3): after each event PRESENT is what the last SDEC since reset left. -/

namespace Sys2Proof.Machine

open Sys2Proof.Safety

theorem present_writeStatus (s : State) (ok : Bool) (w : Half) :
    decide (stState (s.writeStatus ok w) = .present) = ok := by
  cases ok <;> rfl

/-- After one event the status is PRESENT as R32.3's history says (10_state.md section 2). -/
theorem present_after_step {s t : State} {e : HostEvent} {rest : List HostEvent} (hin : s.input = e :: rest)
    (h : step s = .next t) : decide (stState t = .present) = matchedAfter (decide (stState s = .present)) e := by
  rcases step_cases h with ⟨hidle, -⟩ | ⟨_, hreset, rfl⟩ | ⟨w, _, i, hword, hdec, hexec⟩ | ⟨w, _, why, hword, hdec, rfl⟩
  · simp [hin] at hidle
  · cases hin.symm.trans hreset
    rfl
  · cases hin.symm.trans hword
    rw [matchedAfter, hdec]
    cases i with
    | nop | crcinit | crcbyte | mdec =>
      cases hexec
      rfl
    | sdec b0 b1 b2 =>
      cases hexec
      exact present_writeStatus _ (stMatch b0 b1 b2) _
  · cases hin.symm.trans hword
    rw [matchedAfter, hdec]
    rfl

/-- R32.3 along a run. -/
theorem run_present (events : List HostEvent) (s : State) (hin : s.input = events) :
    ∃ t, Host.Core.run Sys2Proof.core events.length s = .next t ∧ t.input = [] ∧
      decide (stState t = .present) = lastSdecMatched (decide (stState s = .present)) events := by
  induction events generalizing s with
  | nil => exact ⟨s, rfl, hin, rfl⟩
  | cons e rest ih =>
    obtain ⟨u, hstep⟩ := step_total s
    have hrest : u.input = rest := by rw [step_input hstep, hin, List.tail_cons]
    obtain ⟨t, hrun, hdone, hpresent⟩ := ih u hrest
    refine ⟨t, (run_succ rest.length hstep).trans hrun, hdone, ?_⟩
    rw [hpresent, present_after_step hin hstep]
    rfl

/-- Settles O48: the history's fold is followed step by step. -/
theorem presentTracksTheLastStatusFrame : Obligations.PresentTracksTheLastStatusFrame := by
  intro s events
  obtain ⟨t, hrun, hdone, hpresent⟩ := run_present events (s.withInput events) rfl
  refine ⟨t, hrun, hdone, ?_⟩
  rw [← decide_eq_true_iff (p := stState t = .present), hpresent]
  rfl

end Sys2Proof.Machine
end

section
/-! The assembler (30_encoding.md R86 to R88): which lines assemble and to what words. -/

namespace Sys2Proof.Machine

/-- A line of another kind than `.word` assembles to its operations' words. -/
theorem assemble_of_wellFormed {line : AsmLine} (hwf : line.wellFormed = true) (hline : ∀ v, line ≠ .rawWord v) :
    assemble line = some ((lineOperations line).map encode) := by
  unfold assemble
  rw [if_pos hwf]
  cases line with
  | rawWord v => exact absurd rfl (hline v)
  | nop | crcinit | crcbyte | mdec | sdec | crcOf | mframe | sframe => rfl

theorem assemble_of_not_wellFormed {line : AsmLine} (hwf : line.wellFormed = false) : assemble line = none := by
  unfold assemble
  rw [hwf]
  rfl

theorem assemble_rawWord {v : Nat} (hwf : (AsmLine.rawWord v).wellFormed = true) :
    assemble (.rawWord v) = some [BitVec.ofNat 64 v] := by
  rw [assemble, if_pos hwf]

theorem isSome_assemble (line : AsmLine) : (assemble line).isSome = line.wellFormed := by
  cases hwf : line.wellFormed with
  | false => rw [assemble_of_not_wellFormed hwf, Option.isSome_none]
  | true =>
    by_cases hline : ∃ v, line = .rawWord v
    · obtain ⟨v, rfl⟩ := hline
      rw [assemble_rawWord hwf, Option.isSome_some]
    · rw [assemble_of_wellFormed hwf (not_exists.mp hline), Option.isSome_some]

/-- Settles O50: the words of such a line are words of operations, which decode to them. -/
theorem onlyRawWordsSpellIllegalWords : Obligations.OnlyRawWordsSpellIllegalWords := by
  refine ⟨isSome_assemble, fun line words h hline w hw => ?legal, fun w => ?rawWord⟩
  case legal =>
    have hwf : line.wellFormed = true := by rw [← isSome_assemble, h, Option.isSome_some]
    rw [assemble_of_wellFormed hwf hline, Option.some_inj] at h
    rw [← h] at hw
    obtain ⟨i, -, rfl⟩ := List.mem_map.mp hw
    exact ⟨i, decodeInvertsEncode i⟩
  case rawWord =>
    have hwf : (AsmLine.rawWord w.toNat).wellFormed = true := decide_eq_true w.isLt
    rw [assemble_rawWord hwf, BitVec.ofNat_toNat, BitVec.setWidth_eq]

/-- Settles O6: the words decoded and the lines assembled, by evaluation; the two illegal ones have an unassigned
opcode and a 1 in an unused operand bit. -/
theorem theSpecsExampleWordsDecode : Obligations.TheSpecsExampleWordsDecode := by
  refine ⟨?_, ?_, ?_, ?_, ?_, ⟨.unassignedOpcode, ?_⟩, ⟨.unusedOperandBits, ?_⟩, ?_, ?_, ?_, ?_, ?_, ?_, ?_⟩ <;> decide

end Sys2Proof.Machine
end

section
/-! The host's sequences (70_reset_and_hazards.md R235 to R239, R242): the phases that construction, a command and a
wait lead to, and which sequences keep the obligations. -/

namespace Sys2Proof.Machine

/-- The phase in which only some of the settling wait after construction is owed. -/
def HostPhase.settling (address : BitVec 7) (owed : Nat) : HostPhase := ⟨address, true, owed, 0, 0, none⟩

theorem HostPhase.mayCommand_settling (address : BitVec 7) (owed : Nat) :
    (HostPhase.settling address owed).mayCommand = (owed == 0) := by
  simp [HostPhase.settling, HostPhase.mayCommand]

theorem HostPhase.allowsAll_construct_wait (address : BitVec 7) (settle : Nat) (rest : List HostAction) :
    (HostPhase.start address).allowsAll (.construct :: .wait settle :: rest) =
      (HostPhase.settling address (50 - settle)).allowsAll rest := by
  simp [HostPhase.allowsAll, HostPhase.allows, HostPhase.start, HostPhase.afterWait, HostPhase.settling, powerOnWait]

theorem HostPhase.allowsAll_wait (p : HostPhase) (ms : Nat) (rest : List HostAction) :
    p.allowsAll (.wait ms :: rest) = (p.afterWait ms).allowsAll rest := rfl

/-- A command goes through exactly when one may be issued. -/
theorem HostPhase.allowsAll_sendCommand {p : HostPhase} {address : BitVec 7} (h : address = p.address)
    (c : SensorCommand) (delivered : Bool) (rest : List HostAction) :
    p.allowsAll (sendCommand address c delivered :: rest) =
      if p.mayCommand then (if delivered then p.afterCommand c else p).allowsAll rest else none := by
  rw [HostPhase.allowsAll_cons, HostPhase.allows_sendCommand h]
  split <;> rfl

theorem HostPhase.isSome_allowsAll_sendCommand {p : HostPhase} {address : BitVec 7} (h : address = p.address)
    (c : SensorCommand) (delivered : Bool) :
    (p.allowsAll [sendCommand address c delivered]).isSome = p.mayCommand := by
  rw [HostPhase.allowsAll_sendCommand h]
  cases p.mayCommand <;> rfl

/-- After a measurement command its response and the conversion wait are owed (70_reset_and_hazards.md R237). -/
theorem HostPhase.afterCommand_measurement {c : SensorCommand} (h : c.responseLength = 6) (p : HostPhase) :
    p.afterCommand c = { p with awaiting := some c, conversionOwed := conversionWait } := by
  simp [HostPhase.afterCommand, h]

theorem HostPhase.afterCommand_softReset (p : HostPhase) :
    p.afterCommand .softReset = { p with resetOwed := softResetWait } := rfl

/-- A wait of `b` covers an owed `a`. -/
theorem sub_beq_zero (a b : Nat) : (a - b == 0) = decide (a ≤ b) := by
  rw [beq_eq_decide, decide_eq_decide, Nat.sub_eq_zero_iff_le]

/-- While a response is outstanding, no wait admits a command (70_reset_and_hazards.md R239). -/
theorem HostPhase.allowsAll_command_before_read (p : HostPhase) {c : SensorCommand} (later : SensorCommand) (ms : Nat)
    (delivered : Bool) (h : c.responseLength ≠ 0) :
    p.allowsAll [sendCommand p.address c true, .wait ms, sendCommand p.address later delivered] = none := by
  have hawaiting : ((p.afterCommand c).afterWait ms).awaiting = some c := HostPhase.afterCommand_awaiting h p
  have haddress : p.address = ((p.afterCommand c).afterWait ms).address := (HostPhase.afterCommand_address p c).symm
  rw [HostPhase.allowsAll_sendCommand rfl, if_pos rfl, HostPhase.allowsAll_wait,
    HostPhase.allowsAll_sendCommand haddress, HostPhase.mayCommand_of_awaiting hawaiting]
  exact ite_self _

/-- The first command after construction: it goes through exactly from 50 ms on (70_reset_and_hazards.md R235). -/
theorem HostPhase.isSome_allowsAll_first_command (address : BitVec 7) (settle : Nat) (c : SensorCommand)
    (delivered : Bool) (rest : List HostAction) :
    ((HostPhase.start address).allowsAll (.construct :: .wait settle :: sendCommand address c delivered :: rest)).isSome
      = (decide (50 ≤ settle) && ((if delivered then (HostPhase.settling address (50 - settle)).afterCommand c
        else HostPhase.settling address (50 - settle)).allowsAll rest).isSome) := by
  have haddress : address = (HostPhase.settling address (50 - settle)).address := rfl
  rw [HostPhase.allowsAll_construct_wait, HostPhase.allowsAll_sendCommand haddress, HostPhase.mayCommand_settling,
    sub_beq_zero]
  cases decide (50 ≤ settle) <;> rfl

/-- A measurement's read after its command and a wait (70_reset_and_hazards.md R237). -/
theorem HostPhase.isSome_allowsAll_measurement_read {c : SensorCommand} (hc : c.responseLength = 6) (p : HostPhase)
    (convert : Nat) (result : Option (List Byte)) :
    ((p.afterCommand c).allowsAll [.wait convert, .readBlock p.address 0 6 result]).isSome =
      decide (15 ≤ convert) := by
  have hawaiting : ((p.afterCommand c).afterWait convert).awaiting = some c := by
    rw [HostPhase.afterCommand_measurement hc, HostPhase.afterWait_awaiting]
  have howed : ((p.afterCommand c).afterWait convert).conversionOwed = 15 - convert := by
    rw [HostPhase.afterCommand_measurement hc, HostPhase.afterWait_conversionOwed, conversionWait]
  have haddress : p.address = ((p.afterCommand c).afterWait convert).address := (p.afterCommand_address c).symm
  rw [HostPhase.allowsAll_wait, HostPhase.allowsAll_cons, HostPhase.allows_readBlock haddress hawaiting, howed,
    sub_beq_zero, hc]
  cases decide (15 ≤ convert) <;> simp [readRegisterOk]

/-- A command after SoftReset and a wait (70_reset_and_hazards.md R236). -/
theorem HostPhase.mayCommand_after_softReset (address : BitVec 7) (owed ms : Nat) :
    (((HostPhase.settling address owed).afterCommand .softReset).afterWait ms).mayCommand =
      (decide (owed ≤ ms) && decide (10 ≤ ms)) := by
  simp [HostPhase.afterCommand_softReset, HostPhase.mayCommand, HostPhase.settling, softResetWait, sub_beq_zero]

/-- Settles O52: each sequence is kept as far as the next command may be issued or the read's wait is over, which the
phase's owed waits decide. -/
theorem earlyReadsAndCommandsBreakTheHostsObligations : Obligations.EarlyReadsAndCommandsBreakTheHostsObligations := by
  refine ⟨fun address settle c delivered => ?construction, fun address settle convert c result hc => ?conversion,
    fun address settle ms c delivered => ?softReset,
    fun p c later ms delivered hc => p.allowsAll_command_before_read later ms delivered hc⟩
  case construction =>
    rw [HostPhase.isSome_allowsAll_first_command, HostPhase.allowsAll_nil, Option.isSome_some, Bool.and_true]
  case conversion =>
    rw [HostPhase.isSome_allowsAll_first_command, if_pos rfl]
    exact congrArg (decide (50 ≤ settle) && ·) (HostPhase.isSome_allowsAll_measurement_read hc _ convert result)
  case softReset =>
    rw [HostPhase.isSome_allowsAll_first_command, if_pos rfl, HostPhase.allowsAll_wait,
      HostPhase.isSome_allowsAll_sendCommand (address := address) rfl, HostPhase.mayCommand_after_softReset,
      Bool.eq_iff_iff]
    simp only [Bool.and_eq_true, decide_eq_true_eq]
    omega

@[simp] theorem HostPhase.allowsAll_useResponse (p : HostPhase) (c : SensorCommand) (result : Option (List Byte)) :
    p.allowsAll (useResponse c result) = some p := by
  rw [useResponse]
  cases handOver c result <;> rfl

/-- A command leaves at most the conversion wait owed before its read. -/
theorem HostPhase.afterCommand_conversionOwed_le {p : HostPhase} (h : p.conversionOwed = 0) (c : SensorCommand) :
    (p.afterCommand c).conversionOwed ≤ conversionWait := by
  cases c with
  | measureHighRep | measureMedRep | measureLowRep => exact le_rfl
  | readStatus | clearStatus | softReset | heaterOn | heaterOff => exact h.trans_le (Nat.zero_le _)

/-- A reading with any command that has a response keeps the obligations, whether its write or its read fails or
not (70_reset_and_hazards.md R242). -/
theorem HostPhase.isSome_allowsAll_reading {c : SensorCommand} (hc : c.responseLength ≠ 0) {registerByte : Byte}
    (hregister : readRegisterOk c registerByte = true) {p : HostPhase} (hp : p.mayCommand = true)
    (hconversion : p.conversionOwed = 0) (delivered : Bool) (result : Option (List Byte)) :
    (p.allowsAll (reading c p.address registerByte delivered result)).isSome = true := by
  rw [reading, HostPhase.allowsAll_sendCommand rfl, if_pos hp]
  cases delivered with
  | false => rfl
  | true =>
    have hawaiting : ((p.afterCommand c).afterWait conversionWait).awaiting = some c :=
      HostPhase.afterCommand_awaiting hc p
    have howed : ((p.afterCommand c).afterWait conversionWait).conversionOwed = 0 :=
      Nat.sub_eq_zero_of_le (HostPhase.afterCommand_conversionOwed_le hconversion c)
    have haddress : p.address = ((p.afterCommand c).afterWait conversionWait).address :=
      (p.afterCommand_address c).symm
    rw [if_pos rfl, if_pos rfl, List.cons_append, List.cons_append, List.nil_append, HostPhase.allowsAll_wait,
      HostPhase.allowsAll_cons, HostPhase.allows_readBlock haddress hawaiting, howed, hregister]
    simp

/-- Step 1 and a reading keep the obligations (70_reset_and_hazards.md R242). -/
theorem HostPhase.isSome_allowsAll_powerOn_reading {c : SensorCommand} (hc : c.responseLength ≠ 0)
    (address : BitVec 7) {registerByte : Byte} (hregister : readRegisterOk c registerByte = true) (delivered : Bool)
    (result : Option (List Byte)) :
    ((HostPhase.start address).allowsAll (powerOn ++ reading c address registerByte delivered result)).isSome =
      true := by
  rw [powerOn, List.cons_append, List.cons_append, List.nil_append, HostPhase.allowsAll_construct_wait]
  exact HostPhase.isSome_allowsAll_reading hc hregister (HostPhase.mayCommand_settling address 0) rfl delivered result

theorem sfpEvents_powerOn_reading (c : SensorCommand) (address : BitVec 7) (registerByte : Byte) (i : Instr)
    {result : Option (List Byte)} (h : handOver c result = some i) :
    sfpEvents (powerOn ++ reading c address registerByte true result) = [.word (encode i)] := by
  have hpowerOn : sfpEvents powerOn = [] := rfl
  rw [sfpEvents_append, sfpEvents_reading, hpowerOn, h]
  rfl

theorem sfpEvents_failed_reading {delivered : Bool} {result : Option (List Byte)}
    (h : delivered = false ∨ result = none) (c : SensorCommand) (address : BitVec 7) (registerByte : Byte) :
    sfpEvents (reading c address registerByte delivered result) = [] := by
  rw [sfpEvents_reading]
  rcases h with rfl | rfl
  · rfl
  · rw [handOver_none]
    exact ite_self _

theorem HostPhase.isSome_allowsAll_firstReading (address : BitVec 7) (delivered : Bool)
    (result : Option (List Byte)) :
    ((HostPhase.start address).allowsAll (firstReading address delivered result)).isSome = true :=
  HostPhase.isSome_allowsAll_powerOn_reading (by decide) address (by decide) delivered result

theorem HostPhase.isSome_allowsAll_statusReading (address : BitVec 7) (registerByte : Byte) (delivered : Bool)
    (result : Option (List Byte)) :
    ((HostPhase.start address).allowsAll
      (powerOn ++ statusReading address registerByte delivered result)).isSome = true :=
  HostPhase.isSome_allowsAll_powerOn_reading (by decide) address rfl delivered result

/-- Settles O51: both readings are readings with a command that has a response, whose bytes are handed over as its
operation. -/
theorem aHostReadingIssuesItsFrameOnce : Obligations.AHostReadingIssuesItsFrameOnce := by
  refine ⟨fun _ => rfl, fun address b0 b1 b2 b3 b4 b5 => ?measurement, fun address registerByte b0 b1 b2 => ?status,
    fun address registerByte delivered result hfailed => ?failed⟩
  case measurement =>
    exact ⟨HostPhase.isSome_allowsAll_firstReading address true _, sfpEvents_powerOn_reading _ address 0 _ rfl⟩
  case status =>
    exact ⟨HostPhase.isSome_allowsAll_statusReading address registerByte true _,
      sfpEvents_powerOn_reading _ address registerByte _ rfl⟩
  case failed =>
    exact ⟨HostPhase.isSome_allowsAll_firstReading address delivered result,
      HostPhase.isSome_allowsAll_statusReading address registerByte delivered result,
      fun c => sfpEvents_failed_reading hfailed c address registerByte⟩

end Sys2Proof.Machine
end
